-- ==== Sys2Proof/Word.lean ====
section
/-! DEFINITION. The word types of the CRC engine: the 64-bit port word and the 8-bit storage unit. -/

namespace Sys2Proof

/-- A value on the register port: every port access moves one whole 64-bit register value
(20_memory.md R52). Command words are words too (30_encoding.md R70). -/
abbrev Word := BitVec 64

/-- The storage unit of the engines, `U = 8` bits (00_scope.md R3): one message byte, or one table index. -/
abbrev Byte := BitVec 8

end Sys2Proof
end

