-- ==== Sys2Proof/Syntax.lean ====
section
/-! DEFINITION. The syntax: the ten commands of the opcode map (30_encoding.md section 3), the five errors a command
can be rejected with (60_exceptions.md R190), the register names of the port (10_state.md section 1), and the events
by which the outside drives the block (20_memory.md R50, 70_reset_and_hazards.md R210). -/

namespace Sys2Proof

/-- The reflect mode, field RM of FIN and UNFIN (30_encoding.md R71): 0 `none`, 1 `refl`, 2 `auto`, 3 reserved. -/
inductive ReflMode where
  | none
  | refl
  | auto
  | reserved
deriving DecidableEq, Repr

/-- The commands, one constructor per row of the opcode map, each with the fields its opcode uses
(30_encoding.md R71, R73). The fields are the raw ones: WellFormed says which values are legal. -/
inductive Instr where
  /-- Does nothing (45_control.md R165). -/
  | nop
  /-- `REM <- INIT` (45_control.md R166). -/
  | seed
  /-- One byte through the bit-by-bit engine (41_bit_engine.md R106). -/
  | bitb (data : Byte)
  /-- One byte through the table-driven engine (42_table.md R125). -/
  | tabb (data : Byte)
  /-- The first `nb` message bits of a byte (43_subbyte.md R142). -/
  | subb (data : Byte) (nb : BitVec 3)
  /-- `RESULT <- Finalize(REM)` (44_finalize.md R153). -/
  | fin (rm : ReflMode)
  /-- `REM <- UndoFinalize(OPND)` (44_finalize.md R154). -/
  | unfin (rm : ReflMode)
  /-- `RESULT <- Reflect(OPND, RB)` (40_reflect.md R92). -/
  | refl (rb : BitVec 7)
  /-- Builds all 256 table entries (42_table.md R122). -/
  | build
  /-- `RESULT <- T[DATA]` (42_table.md R126). -/
  | trd (data : Byte)
deriving DecidableEq, Repr

/-- The errors a command is rejected with: "exactly the five errors below" (60_exceptions.md R190). -/
inductive CmdError where
  /-- A reserved opcode, 0xA to 0xF (R74). -/
  | eOp
  /-- A reserved bit set under a legal opcode, or RM = 3 on FIN or UNFIN (R75). -/
  | eRsv
  /-- TABB or TRD while TVALID is 0 (R125, R126). -/
  | eTab
  /-- SUBB with NB = 0 (R76). -/
  | eNb
  /-- REFL with RB > 64 (R77). -/
  | eRb
deriving DecidableEq, Repr

/-- What a port index names (10_state.md section 1). -/
inductive PortReg where
  | id
  | cfg
  | poly
  | init
  | xorout
  | rem
  | opnd
  | result
  | cmd
  | status
  | reserved
deriving DecidableEq, Repr

/-- What the outside can do to the block in one step: the host's two operations (20_memory.md R50), with a 4-bit
index (R53) and a 64-bit value (R52), and reset, "an event from outside the block" that falls between two accesses
(70_reset_and_hazards.md R210). -/
inductive HostEvent where
  | read (i : BitVec 4)
  | write (i : BitVec 4) (v : Word)
  | reset
deriving DecidableEq, Repr

end Sys2Proof
end

