-- ==== Sys2Proof/WellFormed.lean ====
section
/-! DEFINITION. Which commands have legal fields (30_encoding.md R75 to R77). -/

namespace Sys2Proof

/-- R75: `RM = 3` is reserved. -/
def ReflMode.legal : ReflMode → Bool
  | .none => true
  | .refl => true
  | .auto => true
  | .reserved => false

/-- "One of the ten commands of the opcode map with legal fields" (30_encoding.md R78): SUBB needs `NB` 1 to 7
(R76), REFL `RB` 0 to 64 (R77), FIN and UNFIN a mode other than 3 (R75). Every other field value is legal. -/
def Instr.wf : Instr → Bool
  | .nop => true
  | .seed => true
  | .bitb _ => true
  | .tabb _ => true
  | .subb _ nb => nb != 0
  | .fin rm => rm.legal
  | .unfin rm => rm.legal
  | .refl rb => decide (rb.toNat ≤ 64)
  | .build => true
  | .trd _ => true

end Sys2Proof
end

