-- ==== Sys2Proof/Decode.lean ====
section
/-! DEFINITION. The command word's encoding (30_encoding.md): its fields, the total decoder in the order of
60_exceptions.md R191, and the encoder. -/

namespace Sys2Proof

/-- `RSV`, the mask of the reserved bits of a command word (30_encoding.md R71). -/
def rsvMask : Word := 0xFFFFFFFF80F800C0

/-- `OP = w[3:0]` (30_encoding.md R72). -/
def opField (w : Word) : BitVec 4 := w.extractLsb' 0 4

/-- `RM = w[5:4]` (R72). -/
def rmField (w : Word) : BitVec 2 := w.extractLsb' 4 2

/-- `DATA = w[15:8]`, message bit 7 at `w[15]` (R72). -/
def dataField (w : Word) : Byte := w.extractLsb' 8 8

/-- `NB = w[18:16]` (R72). -/
def nbField (w : Word) : BitVec 3 := w.extractLsb' 16 3

/-- `RB = w[30:24]` (R72). -/
def rbField (w : Word) : BitVec 7 := w.extractLsb' 24 7

/-- The mode an RM field names (30_encoding.md R71). -/
def ReflMode.ofField (f : BitVec 2) : ReflMode :=
  match f.toNat with
  | 0 => .none
  | 1 => .refl
  | 2 => .auto
  | _ => .reserved

/-- The RM field of a mode (30_encoding.md R71). -/
def ReflMode.toField : ReflMode → BitVec 2
  | .none => 0
  | .refl => 1
  | .auto => 2
  | .reserved => 3

/-- A word whose opcode is legal and whose reserved bits are 0, by its opcode (30_encoding.md section 3): the field
checks of the one opcode that has them (R75, R76, R77), and the command. Fields an opcode does not use are not looked
at (R73). -/
def decodeFields (w : Word) : Except CmdError Instr :=
  match (opField w).toNat with
  | 0x0 => .ok .nop
  | 0x1 => .ok .seed
  | 0x2 => .ok (.bitb (dataField w))
  | 0x3 => .ok (.tabb (dataField w))
  | 0x4 => if nbField w = 0 then .error .eNb else .ok (.subb (dataField w) (nbField w))
  | 0x5 => if rmField w = 3 then .error .eRsv else .ok (.fin (ReflMode.ofField (rmField w)))
  | 0x6 => if rmField w = 3 then .error .eRsv else .ok (.unfin (ReflMode.ofField (rmField w)))
  | 0x7 => if 64 < (rbField w).toNat then .error .eRb else .ok (.refl (rbField w))
  | 0x8 => .ok .build
  | 0x9 => .ok (.trd (dataField w))
  | _ => .error .eOp

/-- The decoder, total on every word (30_encoding.md R78). The checks that the word alone decides stand in the order
of 60_exceptions.md R191: a reserved opcode (R74), then a reserved bit (R75), then the field checks. E_TAB needs the
block's state and is raised by the meanings of TABB and TRD. -/
def decode (w : Word) : Except CmdError Instr :=
  if 0xA ≤ (opField w).toNat then .error .eOp
  else if w &&& rsvMask ≠ 0 then .error .eRsv
  else decodeFields w

/-- The opcode of a command (30_encoding.md section 3). -/
def Instr.opcode : Instr → BitVec 4
  | .nop => 0x0
  | .seed => 0x1
  | .bitb _ => 0x2
  | .tabb _ => 0x3
  | .subb _ _ => 0x4
  | .fin _ => 0x5
  | .unfin _ => 0x6
  | .refl _ => 0x7
  | .build => 0x8
  | .trd _ => 0x9

/-- The bits of a command word above its opcode: each used field at its place (30_encoding.md R71), every unused
field and every reserved bit 0. -/
def Instr.fieldBits : Instr → Word
  | .nop => 0
  | .seed => 0
  | .bitb b => b.setWidth 64 <<< 8
  | .tabb b => b.setWidth 64 <<< 8
  | .subb b n => (b.setWidth 64 <<< 8) ||| (n.setWidth 64 <<< 16)
  | .fin m => m.toField.setWidth 64 <<< 4
  | .unfin m => m.toField.setWidth 64 <<< 4
  | .refl k => k.setWidth 64 <<< 24
  | .build => 0
  | .trd b => b.setWidth 64 <<< 8

/-- The word of a command, as the assembler of 30_encoding.md R80 writes it. -/
def encode (i : Instr) : Word :=
  i.opcode.setWidth 64 ||| i.fieldBits

/-- The bits of a command word an opcode uses: OP and the fields of the "used by" column (30_encoding.md R71). -/
def Instr.usedBits : Instr → Word
  | .nop => 0xF
  | .seed => 0xF
  | .bitb _ => 0xFF0F
  | .tabb _ => 0xFF0F
  | .subb _ _ => 0x7FF0F
  | .fin _ => 0x3F
  | .unfin _ => 0x3F
  | .refl _ => 0x7F00000F
  | .build => 0xF
  | .trd _ => 0xFF0F

/-- The instruction the decoder reads from an opcode-table row's word `w` of `nbits` bits. A command is one 64-bit
word (30_encoding.md R70), so the bits above `nbits` are 0, and no row is longer than 64 bits (DESIGN CHOICE, log
entry 6). -/
def decodeTableWord (nbits w : Nat) : Option Instr :=
  if nbits ≤ 64 then (decode (BitVec.ofNat 64 (w % 2 ^ nbits))).toOption else none

end Sys2Proof
end

