-- ==== Sys2Proof/Config.lean ====
section
/-! DEFINITION. The constants of one instance of the block: the checksum width `W` and the storage width `S`
(00_scope.md R1, R2). They are arguments of the model: the state carries them, no step changes them, and every
statement ranges over all of them. The spec leaves no instruction result open, so there is no free value here. -/

namespace Sys2Proof

/-- The two constants an instance is built with, "fixed per instance and never changed at run time"
(00_scope.md R1). The proof fields are R1's range of `W` and R2's conditions on `S`: an instance that breaks them
cannot be written. `W ≤ 64` follows from the last two. -/
structure Instance where
  /-- `CRC_WIDTH`, the checksum width in bits (R1). -/
  W : Nat
  /-- `STORE_BITS`, the storage width in bits of every parameter and remainder register (R2). -/
  S : Nat
  W_pos : 1 ≤ W
  W_le_S : W ≤ S
  S_legal : S = 8 ∨ S = 16 ∨ S = 32 ∨ S = 64
deriving DecidableEq, Repr

/-- Building an instance from two numbers: the model "refuses to build an instance that breaks `S >= W` or
`S ∈ {8,16,32,64}`" (00_scope.md R2, 60_exceptions.md R193), and one whose `W` is outside R1's range. -/
def Instance.build? (W S : Nat) : Option Instance :=
  if h : 1 ≤ W ∧ W ≤ S ∧ (S = 8 ∨ S = 16 ∨ S = 32 ∨ S = 64) then
    some ⟨W, S, h.1, h.2.1, h.2.2⟩
  else
    none

/-- "The recommended value is the smallest of 8, 16, 32, 64 that is `>= W`" (00_scope.md R2); none when no storage
width fits. It is a recommendation only: nothing in the machine reads it. -/
def recommendedStore (W : Nat) : Option Nat :=
  [8, 16, 32, 64].find? fun S => decide (W ≤ S)

/-- DESIGN CHOICE (log entry 1): the instance of `State.reset`. The spec leaves `W` and `S` open as arguments of the
model; the host's interface wants one reset state. Statements never rest on this value. -/
def Instance.default32 : Instance :=
  ⟨32, 32, by decide, by decide, by decide⟩

end Sys2Proof
end

