-- ==== Sys2Proof/Machine/State.lean ====
section
/-! DEFINITION. The state of the block and of the port that drives it, as plain data, and reset. -/

namespace Sys2Proof.Machine

open Sys2Proof

/-- The lookup table: 256 entries `T[0]` to `T[255]` of `S` bits each (10_state.md R34). -/
abbrev Table (S : Nat) := Vector (BitVec S) 256

/-- "The block's architectural state is exactly" this (10_state.md R20), for a storage width of `S` bits. ID is a
constant of the instance (R21) and CMD holds no state (R29). -/
structure Block (S : Nat) where
  /-- CFG, its two used bits: bit 0 REFIN, bit 1 REFOUT (R22). -/
  cfg : BitVec 2
  /-- POLY, the polynomial (R23). -/
  poly : BitVec S
  /-- INIT, the initial value (R24). -/
  init : BitVec S
  /-- XOROUT, the final XOR mask (R25). -/
  xorout : BitVec S
  /-- REM, the remainder accumulator, all `S` bits of it (R26, R36). -/
  rem : BitVec S
  /-- OPND, the operand of UNFIN and REFL (R27). -/
  opnd : Word
  /-- RESULT (R28). -/
  result : Word
  /-- STATUS bit 0, TVALID (R31). -/
  tvalid : Bool
  /-- STATUS bit 1, E_OP (R32). -/
  eOp : Bool
  /-- STATUS bit 2, E_RSV (R32). -/
  eRsv : Bool
  /-- STATUS bit 3, E_TAB (R32). -/
  eTab : Bool
  /-- STATUS bit 4, E_NB (R32). -/
  eNb : Bool
  /-- STATUS bit 5, E_RB (R32). -/
  eRb : Bool
  /-- STATUS bits 11:8, CAUSE (R33). -/
  cause : BitVec 4
  /-- The table (R34). -/
  table : Table S
deriving DecidableEq, Repr

/-- The machine: an instance of the block, and the host's side of the port. The block has no program counter, and
"its program is the sequence of host accesses to the register port" (10_state.md R35), so the sequence still to come
and the values the host has read stand here. DESIGN CHOICE (log entry 2): `pending` and `replies` are the model's own
fields; the spec's block does not hold them. -/
structure State where
  /-- The instance constants `W` and `S` (00_scope.md R1, R2); no step changes them. -/
  inst : Instance
  /-- The block's architectural state (10_state.md R20). -/
  block : Block inst.S
  /-- The events the host will issue, the next one first (20_memory.md R59). -/
  pending : List HostEvent
  /-- The values the host's reads have returned, the oldest first (20_memory.md R50). -/
  replies : List Word
deriving DecidableEq, Repr

/-- Why the machine can stop with a fault: never. "Every command word and every port access has one defined result"
(93_implementation_defined.md section 2), and a rejected command is not a stop (60_exceptions.md R196): it is a next
state. So this type has no constructor. -/
inductive Fault : Type
deriving DecidableEq, Repr

/-- Why the model can refuse an instruction. -/
inductive Refusal where
  /-- An instruction without a meaning, by its mnemonic. Raised by nobody: every row of the opcode table has its
  meaning. Safe: it would stop a run. -/
  | notModelled (mnemonic : String)
deriving DecidableEq, Repr

/-- The block after reset: every register and STATUS field 0 (10_state.md R40). The table entries are "unspecified:
each `T[i]` may hold any `S`-bit value" (R41); DESIGN CHOICE (log entry 3): they are 0 here. No observation depends
on it, because TVALID is 0 (R37). -/
def Block.reset (S : Nat) : Block S where
  cfg := 0#2
  poly := 0#S
  init := 0#S
  xorout := 0#S
  rem := 0#S
  opnd := 0#64
  result := 0#64
  tvalid := false
  eOp := false
  eRsv := false
  eTab := false
  eNb := false
  eRb := false
  cause := 0#4
  table := Vector.replicate 256 0#S

/-- The machine right after reset, for the instance `c`: the block reset, no access issued yet. -/
def State.resetOf (c : Instance) : State where
  inst := c
  block := Block.reset c.S
  pending := []
  replies := []

/-- The machine right after reset, for the instance of log entry 1. -/
def State.reset : State := State.resetOf Instance.default32

end Sys2Proof.Machine
end

