-- ==== Sys2Proof/Machine/Operands.lean ====
section
/-! DEFINITION. Where a command's operands come from: the flags of CFG, the regime, the masks, the effective reflect
flag, the ID constant and the register a port index names. -/

namespace Sys2Proof.Machine

open Sys2Proof

/-- A word of `n` bits whose low `k` bits are ones: `maskW` for `k = W` and `maskS` for `k = S` (00_scope.md R4). -/
def lowMask (n k : Nat) : BitVec n := BitVec.ofNat n (2 ^ k - 1)

/-- `sh = 8 - W`, used when `W < 8` (00_scope.md R4). -/
def sh (W : Nat) : Nat := 8 - W

/-- REFIN, `CFG[0]` (10_state.md R22). -/
def Block.refin {S : Nat} (b : Block S) : Bool := b.cfg.getLsbD 0

/-- REFOUT, `CFG[1]` (10_state.md R22). -/
def Block.refout {S : Nat} (b : Block S) : Bool := b.cfg.getLsbD 1

/-- The three numeric regimes (41_bit_engine.md R100). -/
inductive Regime where
  | reflected
  | wide
  | narrow
deriving DecidableEq, Repr

/-- The regime of every engine command, from `W` and the current REFIN (41_bit_engine.md R100). -/
def regime (W : Nat) (refin : Bool) : Regime :=
  if refin then .reflected else if 8 ≤ W then .wide else .narrow

/-- `EffR(RM)`, the reflect flag of FIN and UNFIN (44_finalize.md R152); none for the reserved mode, which these
commands reject. -/
def effR (rm : ReflMode) (refin refout : Bool) : Option Bool :=
  match rm with
  | .none => some false
  | .refl => some true
  | .auto => some (refin ^^ refout)
  | .reserved => none

/-- The constant ID, `zext_64(S << 8 OR W)` (10_state.md R21). -/
def idWord (c : Instance) : Word := BitVec.ofNat 64 c.S <<< 8 ||| BitVec.ofNat 64 c.W

/-- The register at a port index (10_state.md section 1); 10 to 15 are reserved (R30). -/
def portReg (i : BitVec 4) : PortReg :=
  match i.toNat with
  | 0 => .id
  | 1 => .cfg
  | 2 => .poly
  | 3 => .init
  | 4 => .xorout
  | 5 => .rem
  | 6 => .opnd
  | 7 => .result
  | 8 => .cmd
  | 9 => .status
  | _ => .reserved

end Sys2Proof.Machine
end

