-- ==== Sys2Proof/Machine/Flags.lean ====
section
/-! DEFINITION. The STATUS fields: the word the host reads, the write-1-to-clear, and what a rejection records. -/

namespace Sys2Proof.Machine

open Sys2Proof

/-- A flag as a word, 0 or 1. -/
def flagWord (b : Bool) : Word := if b then 1 else 0

/-- What a read of STATUS returns: `zext_64(CAUSE << 8 OR STATUS[5:1] << 1 OR TVALID)` (10_state.md R33). -/
def Block.statusWord {S : Nat} (b : Block S) : Word :=
  b.cause.setWidth 64 <<< 8
    ||| flagWord b.eRb <<< 5
    ||| flagWord b.eNb <<< 4
    ||| flagWord b.eTab <<< 3
    ||| flagWord b.eRsv <<< 2
    ||| flagWord b.eOp <<< 1
    ||| flagWord b.tvalid

/-- `STATUS[5:1] = 0`: no error bit is set (10_state.md R33). -/
def Block.noError {S : Nat} (b : Block S) : Bool :=
  !(b.eOp || b.eRsv || b.eTab || b.eNb || b.eRb)

/-- The code an error writes to CAUSE (60_exceptions.md R190). -/
def errorCode : CmdError → BitVec 4
  | .eOp => 1
  | .eRsv => 2
  | .eTab => 3
  | .eNb => 4
  | .eRb => 5

/-- What a rejection records: its own error bit set, the other error bits kept (10_state.md R32), its code in CAUSE
(R33), and nothing else (60_exceptions.md R192). -/
def Block.raise {S : Nat} (b : Block S) (e : CmdError) : Block S :=
  match e with
  | .eOp => { b with eOp := true, cause := errorCode .eOp }
  | .eRsv => { b with eRsv := true, cause := errorCode .eRsv }
  | .eTab => { b with eTab := true, cause := errorCode .eTab }
  | .eNb => { b with eNb := true, cause := errorCode .eNb }
  | .eRb => { b with eRb := true, cause := errorCode .eRb }

/-- The first half of a STATUS write: `STATUS[5:1] <- STATUS[5:1] AND NOT_5(v[5:1])` (10_state.md R33). -/
def Block.clearErrorBits {S : Nat} (b : Block S) (v : Word) : Block S :=
  { b with
    eOp := b.eOp && !v.getLsbD 1
    eRsv := b.eRsv && !v.getLsbD 2
    eTab := b.eTab && !v.getLsbD 3
    eNb := b.eNb && !v.getLsbD 4
    eRb := b.eRb && !v.getLsbD 5 }

/-- A host write `v` to STATUS: the bits written 1 are cleared; "then, if `STATUS[5:1] = 0`, `CAUSE <- 0`"
(10_state.md R33). Bits `v[0]` and `v[63:6]` are ignored. -/
def Block.writeStatus {S : Nat} (b : Block S) (v : Word) : Block S :=
  let b' := b.clearErrorBits v
  if b'.noError then { b' with cause := 0 } else b'

end Sys2Proof.Machine
end

