-- ==== Sys2Proof/Machine/Ops.lean ====
section
/-! DEFINITION. The shared operations: the writes to single registers, taking a rejection, reset, and the host's read. -/

namespace Sys2Proof.Machine

open Sys2Proof

/-- The machine with another block state, everything else kept. -/
abbrev State.withBlock (s : State) (b : Block s.inst.S) : State := { s with block := b }

/-- The machine after a read has returned `v` to the host. -/
abbrev State.reply (s : State) (v : Word) : State := { s with replies := s.replies ++ [v] }

/-- REM takes a new value (10_state.md R26). -/
def Block.setRem {S : Nat} (b : Block S) (v : BitVec S) : Block S := { b with rem := v }

/-- RESULT takes a new value (10_state.md R28). -/
def Block.setResult {S : Nat} (b : Block S) (v : Word) : Block S := { b with result := v }

/-- The whole table is written and TVALID set, in one step (42_table.md R122). -/
def Block.setTable {S : Nat} (b : Block S) (t : Table S) : Block S := { b with table := t, tvalid := true }

/-- A host write to CFG stores `v[1:0]` and clears TVALID (10_state.md R22, R31). -/
def Block.writeCfg {S : Nat} (b : Block S) (v : Word) : Block S :=
  { b with cfg := v.setWidth 2, tvalid := false }

/-- A host write to POLY stores `trunc_S(v)` and clears TVALID (10_state.md R23, R31). -/
def Block.writePoly {S : Nat} (b : Block S) (v : Word) : Block S :=
  { b with poly := v.setWidth S, tvalid := false }

/-- A host write to INIT stores `trunc_S(v)`; TVALID is kept (10_state.md R24). -/
def Block.writeInit {S : Nat} (b : Block S) (v : Word) : Block S := { b with init := v.setWidth S }

/-- A host write to XOROUT stores `trunc_S(v)`; TVALID is kept (10_state.md R25). -/
def Block.writeXorout {S : Nat} (b : Block S) (v : Word) : Block S := { b with xorout := v.setWidth S }

/-- A host write to REM stores `trunc_S(v)` (10_state.md R26). -/
def Block.writeRem {S : Nat} (b : Block S) (v : Word) : Block S := b.setRem (v.setWidth S)

/-- A host write to OPND stores `v` (10_state.md R27). -/
def Block.writeOpnd {S : Nat} (b : Block S) (v : Word) : Block S := { b with opnd := v }

/-- Taking a rejection, the one operation by which every error is raised: the command is not run, the error bit and
CAUSE are written, and the block goes on (60_exceptions.md R192, R194). -/
def reject (e : CmdError) (s : State) : State := s.withBlock (s.block.raise e)

/-- The reset event: "in one step it puts every piece of state into the condition of" 10_state.md R40
(70_reset_and_hazards.md R210). What the host has read and what it will issue are not the block's, and stay
(DESIGN CHOICE, log entry 4). -/
def resetBlock (s : State) : State := s.withBlock (Block.reset s.inst.S)

/-- `RegRead(i)`: the register at the index, zero-extended to 64 bits (20_memory.md R54). CMD and the reserved
indices read 0 (10_state.md R29, R30). A read changes nothing (20_memory.md R56). -/
def regRead (i : BitVec 4) (s : State) : Word :=
  match portReg i with
  | .id => idWord s.inst
  | .cfg => s.block.cfg.setWidth 64
  | .poly => s.block.poly.setWidth 64
  | .init => s.block.init.setWidth 64
  | .xorout => s.block.xorout.setWidth 64
  | .rem => s.block.rem.setWidth 64
  | .opnd => s.block.opnd
  | .result => s.block.result
  | .cmd => 0
  | .status => s.block.statusWord
  | .reserved => 0

end Sys2Proof.Machine
end

