-- ==== Sys2Proof/Machine/Control.lean ====
section
/-! DEFINITION. The control commands NOP and SEED (45_control.md). -/

namespace Sys2Proof.Machine

open Sys2Proof

/-- NOP (45_control.md R165): no state changes. -/
def execNop (s : State) : Host.Outcome State Fault Refusal :=
  .next s

/-- SEED (45_control.md R166): `REM <- INIT`, copied as stored, all `S` bits, never reflected. -/
def execSeed (s : State) : Host.Outcome State Fault Refusal :=
  .next (s.withBlock (s.block.setRem s.block.init))

end Sys2Proof.Machine
end

