-- ==== Sys2Proof/Machine/Reflect.lean ====
section
/-! DEFINITION. The reflect unit and REFL (40_reflect.md). -/

namespace Sys2Proof.Machine

open Sys2Proof

/-- `Reflect(v, n)` as the loop of 40_reflect.md R90: `out <- 0`, then `out <- (out << 1) OR v[i]` for `i` from 0 to
`n - 1`. -/
def reflect {N : Nat} (v : BitVec N) : Nat → BitVec N
  | 0 => 0#N
  | i + 1 => reflect v i <<< 1 ||| (BitVec.ofBool (v.getLsbD i)).setWidth N

/-- REFL (40_reflect.md R92): `if RB > 64: raise E_RB`, else `RESULT <- Reflect(OPND, RB)` with `N = 64`. -/
def execRefl (rb : BitVec 7) (s : State) : Host.Outcome State Fault Refusal :=
  if 64 < rb.toNat then .next (reject .eRb s)
  else .next (s.withBlock (s.block.setResult (reflect s.block.opnd rb.toNat)))

end Sys2Proof.Machine
end

