-- ==== Sys2Proof/Machine/Finalize.lean ====
section
/-! DEFINITION. The finalize / unfinalize unit, and FIN and UNFIN (44_finalize.md). -/

namespace Sys2Proof.Machine

open Sys2Proof

/-- `Finalize(r, R)`: the remainder reflected over `W` bits when `R` is 1, XOR XOROUT, AND maskW
(44_finalize.md R150). -/
def finalize {S : Nat} (W : Nat) (xorout r : BitVec S) (R : Bool) : BitVec S :=
  ((if R then reflect r W else r) ^^^ xorout) &&& lowMask S W

/-- `UndoFinalize(c, R)` of a 64-bit checksum: `trunc_S((c AND maskW) XOR XOROUT)`, reflected over `W` bits when `R`
is 1 (44_finalize.md R151). It undoes `finalize` as R155 says, one of the system laws of 46_host_api.md R183. -/
def undoFinalize {S : Nat} (W : Nat) (xorout : BitVec S) (c : Word) (R : Bool) : BitVec S :=
  let t := (c &&& lowMask 64 W).setWidth S ^^^ xorout
  if R then reflect t W else t

/-- FIN (44_finalize.md R153): `if RM = 3: raise E_RSV`, else `RESULT <- zext_64(Finalize(REM, EffR(RM)))`. -/
def execFin (rm : ReflMode) (s : State) : Host.Outcome State Fault Refusal :=
  match effR rm s.block.refin s.block.refout with
  | none => .next (reject .eRsv s)
  | some R =>
    .next (s.withBlock (s.block.setResult ((finalize s.inst.W s.block.xorout s.block.rem R).setWidth 64)))

/-- UNFIN (44_finalize.md R154): `if RM = 3: raise E_RSV`, else `REM <- UndoFinalize(OPND, EffR(RM))`. -/
def execUnfin (rm : ReflMode) (s : State) : Host.Outcome State Fault Refusal :=
  match effR rm s.block.refin s.block.refout with
  | none => .next (reject .eRsv s)
  | some R =>
    .next (s.withBlock (s.block.setRem (undoFinalize s.inst.W s.block.xorout s.block.opnd R)))

end Sys2Proof.Machine
end

