-- ==== Sys2Proof/Machine/BitEngine.lean ====
section
/-! DEFINITION. The bit-by-bit engine and BITB (41_bit_engine.md). -/

namespace Sys2Proof.Machine

open Sys2Proof

/-- `StepR(r, q)`, the right step of the REFLECTED regime; bit 0 is tested before the shift (41_bit_engine.md R101). -/
def stepR {S : Nat} (q r : BitVec S) : BitVec S :=
  if r.getLsbD 0 then (r >>> 1) ^^^ q else r >>> 1

/-- `StepL(r, p, t)`, the left step of the WIDE and NARROW regimes; bit `t` is tested before the shift, and the shift
drops what leaves the `S` bits (41_bit_engine.md R102). -/
def stepL {S : Nat} (p : BitVec S) (t : Nat) (r : BitVec S) : BitVec S :=
  if r.getLsbD t then (r <<< 1) ^^^ p else r <<< 1

/-- The branchless form of StepR, `(r >> 1) XOR (r[0] * q)` (41_bit_engine.md R101). R109, one of the system laws of
46_host_api.md R183, says that it gives what the branch form gives. -/
def stepRBranchless {S : Nat} (q r : BitVec S) : BitVec S :=
  (r >>> 1) ^^^ BitVec.ofNat S (r.getLsbD 0).toNat * q

/-- The branchless form of StepL, `trunc_S(r << 1) XOR (r[t] * p)` (41_bit_engine.md R102, R109; 46_host_api.md
R183). -/
def stepLBranchless {S : Nat} (p : BitVec S) (t : Nat) (r : BitVec S) : BitVec S :=
  (r <<< 1) ^^^ BitVec.ofNat S (r.getLsbD t).toNat * p

/-- The engine's loop: a byte folded into the remainder at the regime's place, then `k` steps. BitByte is `k = 8`
(41_bit_engine.md R104); SubBits "is BitByte with the loop count `n` in place of 8" (43_subbyte.md R140). The fold
positions are R104's, which the spec supplied itself (93_implementation_defined.md G1). No step masks to `W` bits
(00_scope.md R5). -/
def foldBits {S : Nat} (W : Nat) (refin : Bool) (poly r : BitVec S) (b : Byte) (k : Nat) : BitVec S :=
  match regime W refin with
  | .reflected => (stepR (reflect poly W))^[k] (r ^^^ b.setWidth S)
  | .wide => (stepL poly (W - 1))^[k] (r ^^^ b.setWidth S <<< (W - 8))
  | .narrow => (stepL (poly <<< sh W) 7)^[k] (r <<< sh W ^^^ b.setWidth S) >>> sh W

/-- `BitByte(r, b)`: one message byte, always 8 steps (41_bit_engine.md R104, R105). -/
def bitByte {S : Nat} (W : Nat) (refin : Bool) (poly r : BitVec S) (b : Byte) : BitVec S :=
  foldBits W refin poly r b 8

/-- BITB (41_bit_engine.md R106): `REM <- BitByte(REM, DATA)`, whatever TVALID is. -/
def execBitb (data : Byte) (s : State) : Host.Outcome State Fault Refusal :=
  .next (s.withBlock (s.block.setRem (bitByte s.inst.W s.block.refin s.block.poly s.block.rem data)))

end Sys2Proof.Machine
end

