-- ==== Sys2Proof/Machine/SubByte.lean ====
section
/-! DEFINITION. The sub-byte processor and SUBB (43_subbyte.md). -/

namespace Sys2Proof.Machine

open Sys2Proof

/-- `0xFF AND (0xFF << (8 - n))`: the mask of bits `7:8-n` (43_subbyte.md R140). -/
def topMask (n : Nat) : Byte := 0xFF#8 <<< (8 - n)

/-- The first `n` bits of a byte in the regime's message bit order, the others cleared (43_subbyte.md R140, R141):
bits `n-1:0` in REFLECTED, bits `7:8-n` in WIDE and NARROW. -/
def keepBits (W : Nat) (refin : Bool) (b : Byte) (n : Nat) : Byte :=
  match regime W refin with
  | .reflected => b &&& lowMask 8 n
  | .wide => b &&& topMask n
  | .narrow => b &&& topMask n

/-- `SubBits(r, b, n)` (43_subbyte.md R140). -/
def subBits {S : Nat} (W : Nat) (refin : Bool) (poly r : BitVec S) (b : Byte) (n : Nat) : BitVec S :=
  foldBits W refin poly r (keepBits W refin b n) n

/-- SUBB (43_subbyte.md R142): `if NB = 0: raise E_NB`, else `REM <- SubBits(REM, DATA, NB)`. -/
def execSubb (data : Byte) (nb : BitVec 3) (s : State) : Host.Outcome State Fault Refusal :=
  if nb = 0 then .next (reject .eNb s)
  else
    .next (s.withBlock (s.block.setRem
      (subBits s.inst.W s.block.refin s.block.poly s.block.rem data nb.toNat)))

end Sys2Proof.Machine
end

