-- ==== Sys2Proof/Machine/TableEngine.lean ====
section
/-! DEFINITION. The table builder, the table-driven engine, and BUILD, TABB, TRD (42_table.md). -/

namespace Sys2Proof.Machine

open Sys2Proof

/-- `T[i]` (10_state.md R34). A byte indexes every one of the 256 entries and no other. -/
def readTable {S : Nat} (t : Table S) (i : Byte) : BitVec S := t[i.toNat]'i.isLt

/-- `Entry(b)`: the byte run through the bit engine from a zero seed, masked to `W` bits, and in NARROW shifted up by
`sh` (42_table.md R120). -/
def entry {S : Nat} (W : Nat) (refin : Bool) (poly : BitVec S) (b : Byte) : BitVec S :=
  let c := bitByte W refin poly 0#S b &&& lowMask S W
  match regime W refin with
  | .reflected => c
  | .wide => c
  | .narrow => c <<< sh W

/-- All 256 entries (42_table.md R122). -/
def buildTable {S : Nat} (W : Nat) (refin : Bool) (poly : BitVec S) : Table S :=
  Vector.ofFn fun i : Fin 256 => entry W refin poly (BitVec.ofFin i)

/-- The table index of a byte `b` (42_table.md R124): the byte of the remainder that the next 8 steps consume, XOR
`b`, AND 0xFF. -/
def tableIndex {S : Nat} (W : Nat) (refin : Bool) (r : BitVec S) (b : Byte) : Byte :=
  match regime W refin with
  | .reflected => (r ^^^ b.setWidth S).setWidth 8
  | .wide => (r >>> (W - 8) ^^^ b.setWidth S).setWidth 8
  | .narrow => (r <<< sh W ^^^ b.setWidth S).setWidth 8

/-- `TabByte(r, b)`: one lookup combined with a shift of the remainder (42_table.md R124). The formulas are
R124's, which the spec supplied itself (93_implementation_defined.md G2). -/
def tabByte {S : Nat} (W : Nat) (refin : Bool) (t : Table S) (r : BitVec S) (b : Byte) : BitVec S :=
  match regime W refin with
  | .reflected => r >>> 8 ^^^ readTable t (tableIndex W refin r b)
  | .wide => r <<< 8 ^^^ readTable t (tableIndex W refin r b)
  | .narrow => readTable t (tableIndex W refin r b) >>> sh W

/-- BUILD (42_table.md R122): every entry written and TVALID set, in the one step of the command. -/
def execBuild (s : State) : Host.Outcome State Fault Refusal :=
  .next (s.withBlock (s.block.setTable (buildTable s.inst.W s.block.refin s.block.poly)))

/-- TABB (42_table.md R125): `if TVALID = 0: raise E_TAB`, else `REM <- TabByte(REM, DATA)`. -/
def execTabb (data : Byte) (s : State) : Host.Outcome State Fault Refusal :=
  if s.block.tvalid then
    .next (s.withBlock (s.block.setRem (tabByte s.inst.W s.block.refin s.block.table s.block.rem data)))
  else .next (reject .eTab s)

/-- TRD (42_table.md R126): `if TVALID = 0: raise E_TAB`, else `RESULT <- zext_64(T[DATA])`. -/
def execTrd (data : Byte) (s : State) : Host.Outcome State Fault Refusal :=
  if s.block.tvalid then
    .next (s.withBlock (s.block.setResult ((readTable s.block.table data).setWidth 64)))
  else .next (reject .eTab s)

end Sys2Proof.Machine
end

