-- ==== Sys2Proof/Machine/Dispatch.lean ====
section
/-! DEFINITION. One arm per command: the dispatch to the meanings. -/

namespace Sys2Proof.Machine

open Sys2Proof

/-- Runs one decoded command (30_encoding.md section 3). -/
def exec (i : Instr) (s : State) : Host.Outcome State Fault Refusal :=
  match i with
  | .nop => Sys2Proof.Machine.execNop s
  | .seed => Sys2Proof.Machine.execSeed s
  | .bitb data => Sys2Proof.Machine.execBitb data s
  | .tabb data => Sys2Proof.Machine.execTabb data s
  | .subb data nb => Sys2Proof.Machine.execSubb data nb s
  | .fin rm => Sys2Proof.Machine.execFin rm s
  | .unfin rm => Sys2Proof.Machine.execUnfin rm s
  | .refl rb => Sys2Proof.Machine.execRefl rb s
  | .build => Sys2Proof.Machine.execBuild s
  | .trd data => Sys2Proof.Machine.execTrd data s

end Sys2Proof.Machine
end

