-- ==== Sys2Proof/Machine/Port.lean ====
section
/-! DEFINITION. The register port: what one event from outside does to the machine (20_memory.md, and
70_reset_and_hazards.md R210). -/

namespace Sys2Proof.Machine

open Sys2Proof

/-- The index of CMD (10_state.md section 1). -/
def cmdIndex : BitVec 4 := 8

/-- A word written to CMD "runs the command `w` encodes, to completion, in the same step as the write"
(10_state.md R29), or is rejected with the error the decoder names (60_exceptions.md R191, R192). -/
def runCommand (w : Word) (s : State) : Host.Outcome State Fault Refusal :=
  match decode w with
  | .ok i => exec i s
  | .error e => .next (reject e s)

/-- `RegWrite(i, v)` (20_memory.md R50, R57): the register at the index takes the value; a write to ID, RESULT or a
reserved index does nothing; a write to CMD runs a command. -/
def regWrite (i : BitVec 4) (v : Word) (s : State) : Host.Outcome State Fault Refusal :=
  match portReg i with
  | .id => .next s
  | .cfg => .next (s.withBlock (s.block.writeCfg v))
  | .poly => .next (s.withBlock (s.block.writePoly v))
  | .init => .next (s.withBlock (s.block.writeInit v))
  | .xorout => .next (s.withBlock (s.block.writeXorout v))
  | .rem => .next (s.withBlock (s.block.writeRem v))
  | .opnd => .next (s.withBlock (s.block.writeOpnd v))
  | .result => .next s
  | .cmd => runCommand v s
  | .status => .next (s.withBlock (s.block.writeStatus v))
  | .reserved => .next s

/-- One event from outside, whole (20_memory.md R55): a read returns a value and changes nothing else (R56), a write
has the effects of R57, and reset puts the block into the condition of 10_state.md R40. -/
def hostEvent (e : HostEvent) (s : State) : Host.Outcome State Fault Refusal :=
  match e with
  | .read i => .next (s.reply (regRead i s))
  | .write i v => regWrite i v s
  | .reset => .next (resetBlock s)

/-- The next event takes effect, "one at a time, in the order" the host issues them (20_memory.md R59). With none
pending the block is idle, and "that is not a fault" (R63). -/
def nextEvent (s : State) : Host.Outcome State Fault Refusal :=
  match s.pending with
  | [] => .next s
  | e :: rest => hostEvent e { s with pending := rest }

/-- A command word put in front of the events to come, so that the next step runs it: the block fetches nothing
(20_memory.md R62), a command is what the host writes to CMD next. -/
def issueFirst (w : Word) (s : State) : State :=
  { s with pending := .write cmdIndex w :: s.pending }

end Sys2Proof.Machine
end

