-- ==== Sys2Proof/Machine/Step.lean ====
section
/-! DEFINITION. One step of the machine: one event at the register port. -/

namespace Sys2Proof.Machine

open Sys2Proof

/-- One step: the next event of the host takes effect, whole (20_memory.md R55, R59). -/
def step (s : State) : Host.Outcome State Fault Refusal :=
  nextEvent s

/-- The state whose very next step runs the command word `w` of `nbits` bits: a host write of it to CMD stands first
among the pending events (log entry 2). -/
def State.withFetchWord (s : State) (nbits w : Nat) : State :=
  issueFirst (BitVec.ofNat 64 (w % 2 ^ nbits)) s

end Sys2Proof.Machine
end

