-- ==== Sys2Proof/Machine/HostApi.lean ====
section
/-! DEFINITION. The host's side in the spec's own terms: the assembler of host programs (30_encoding.md R80, R81) and
the host procedures (46_host_api.md). They are not part of the block; each is a function to the events the host
issues, to be put into `State.pending`. -/

namespace Sys2Proof.Machine

open Sys2Proof

/-- A command mnemonic "stands for `WR CMD, <word>`" (30_encoding.md R80). -/
def commandEvent (i : Instr) : HostEvent := .write cmdIndex (encode i)

/-- A line of a host program (30_encoding.md R80), and the pseudo-instructions (R81). -/
inductive AsmLine where
  /-- A command mnemonic with its operands. -/
  | command (i : Instr)
  /-- `WR reg, v`, the register given by its index. -/
  | wr (i : BitVec 4) (v : Word)
  /-- `RD reg`. -/
  | rd (i : BitVec 4)
  /-- `BITS b1, ..., bn`. -/
  | bits (bytes : List Byte)
  /-- `TABS b1, ..., bn`. -/
  | tabs (bytes : List Byte)
  /-- `LDREM v`. -/
  | ldrem (v : Word)
  /-- `LDOPND v`. -/
  | ldopnd (v : Word)
  /-- `CLRERR`. -/
  | clrerr
  /-- `PARAMS p, i, x, ri, ro`. -/
  | params (p i x : Word) (ri ro : Bool)
deriving DecidableEq, Repr

/-- The value `ri OR ro << 1` that PARAMS writes to CFG (30_encoding.md R81). -/
def cfgWord (ri ro : Bool) : Word := flagWord ri ||| flagWord ro <<< 1

/-- The accesses a line stands for (30_encoding.md R80, R81). -/
def AsmLine.expand : AsmLine → List HostEvent
  | .command i => [commandEvent i]
  | .wr i v => [.write i v]
  | .rd i => [.read i]
  | .bits bytes => bytes.map fun b => commandEvent (.bitb b)
  | .tabs bytes => bytes.map fun b => commandEvent (.tabb b)
  | .ldrem v => [.write 5 v]
  | .ldopnd v => [.write 6 v]
  | .clrerr => [.write 9 0x3E]
  | .params p i x ri ro => [.write 2 p, .write 3 i, .write 4 x, .write 1 (cfgWord ri ro)]

/-- A host program as the block sees it. -/
def assemble (lines : List AsmLine) : List HostEvent := lines.flatMap AsmLine.expand

/-- The two shapes of every procedure: `X` is BITB or TABB (46_host_api.md, before R170; R173). -/
inductive DataEngine where
  | bitwise
  | table
deriving DecidableEq, Repr

/-- The whole-byte command of a shape. -/
def DataEngine.command : DataEngine → Byte → Instr
  | .bitwise, b => .bitb b
  | .table, b => .tabb b

/-- `X d[0] ; ... ; X d[n-1]` (46_host_api.md R170). -/
def feedBytes (x : DataEngine) (d : List Byte) : List HostEvent :=
  d.map fun b => commandEvent (x.command b)

/-- The seed of a message computed from scratch (46_host_api.md R170). -/
def seedFresh : List HostEvent := [commandEvent .seed]

/-- The seed of a continuation from the checksum `prev` (46_host_api.md R172). -/
def seedFrom (prev : Word) : List HostEvent := [.write 6 prev, commandEvent (.unfin .auto)]

/-- `FIN auto ; RD RESULT` (46_host_api.md R170, R171). -/
def finish : List HostEvent := [commandEvent (.fin .auto), .read 7]

/-- The first `n` bytes of a buffer; none where that "reaches past its buffer": such a procedure "has no meaning in
this spec: a model refuses it" (46_host_api.md R178). -/
def takeBytes (buf : List Byte) (n : Nat) : Option (List Byte) :=
  if n ≤ buf.length then some (buf.take n) else none

/-- The data commands of a message of `nbits` bits: `nbits div 8` whole bytes, then, "if m != 0", the tail through
SUBB in either shape (46_host_api.md R174); none past the buffer (R178). -/
def feedBits (x : DataEngine) (buf : List Byte) (nbits : Nat) : Option (List HostEvent) :=
  (takeBytes buf (nbits / 8)).bind fun d =>
    if nbits % 8 = 0 then some (feedBytes x d)
    else
      (buf[nbits / 8]?).map fun t =>
        feedBytes x d ++ [commandEvent (.subb t (BitVec.ofNat 3 (nbits % 8)))]

/-- The accesses of `Calculate` over a whole message (46_host_api.md R170). -/
def wholeMessage (x : DataEngine) (d : List Byte) : List HostEvent := seedFresh ++ feedBytes x d ++ finish

/-- "building a Table once and calling Calculate with it repeatedly" (42_table.md R129, one of the system laws of
46_host_api.md R183): one message after another, with nothing between them. -/
def calculateEach (x : DataEngine) (msgs : List (List Byte)) : List HostEvent := msgs.flatMap (wholeMessage x)

/-- `Calculate(d[0..n-1])` (46_host_api.md R170; R173 for the table shape). -/
def calculate (x : DataEngine) (buf : List Byte) (n : Nat) : Option (List HostEvent) :=
  (takeBytes buf n).map (wholeMessage x)

/-- `Continue(prev, d[0..n-1])` (46_host_api.md R172). -/
def continueFrom (x : DataEngine) (prev : Word) (buf : List Byte) (n : Nat) : Option (List HostEvent) :=
  (takeBytes buf n).map fun d => seedFrom prev ++ feedBytes x d ++ finish

/-- `CalculateBits(d, nbits)` (46_host_api.md R174). -/
def calculateBits (x : DataEngine) (buf : List Byte) (nbits : Nat) : Option (List HostEvent) :=
  (feedBits x buf nbits).map fun evs => seedFresh ++ evs ++ finish

/-- `ContinueBits(prev, d, nbits)` (46_host_api.md R174). -/
def continueBits (x : DataEngine) (prev : Word) (buf : List Byte) (nbits : Nat) : Option (List HostEvent) :=
  (feedBits x buf nbits).map fun evs => seedFrom prev ++ evs ++ finish

/-- Steps 1 and 2 of the boot order (70_reset_and_hazards.md R212): the parameter set, then BUILD for the table
shape. -/
def prepare (x : DataEngine) (p i xo : Word) (ri ro : Bool) : List HostEvent :=
  (AsmLine.params p i xo ri ro).expand ++
    match x with
    | .bitwise => []
    | .table => [commandEvent .build]

end Sys2Proof.Machine
end

