-- ==== Sys2Proof/Safety.lean ====
section
/-! DEFINITION. The terms statements use: the invariant of the block, the clean remainder, the bit-serial CRC register
of 46_host_api.md R176, and running the machine. -/

namespace Sys2Proof.Machine

open Sys2Proof

/-- While TVALID is 1 "the table holds the 256 entries that BUILD computes from the current POLY and REFIN"
(10_state.md R31). The rule's "exactly when" is read as this direction (log entry 5): R37 itself keeps the old
entries after TVALID is cleared. -/
abbrev Block.TableMatches {S : Nat} (W : Nat) (b : Block S) : Prop :=
  b.tvalid = true → b.table = buildTable W b.refin b.poly

/-- CAUSE is a code of 60_exceptions.md R190 ("codes 6 to 15 are never written"), and it is 0 exactly while no error
bit is set (10_state.md R33, 60_exceptions.md R195). -/
abbrev Block.CauseMatches {S : Nat} (b : Block S) : Prop :=
  b.cause.toNat ≤ 5 ∧ (b.cause = 0 ↔ b.noError = true)

/-- The invariant of the block: the table matches while it is valid, and CAUSE matches the error bits. -/
abbrev State.Inv (s : State) : Prop :=
  s.block.TableMatches s.inst.W ∧ s.block.CauseMatches

/-- The condition reset puts the block in (10_state.md R40); the table is left out, because R41 leaves it unspecified. -/
abbrev Block.InResetCondition {S : Nat} (b : Block S) : Prop :=
  b.cfg = 0#2 ∧ b.poly = 0#S ∧ b.init = 0#S ∧ b.xorout = 0#S ∧ b.rem = 0#S ∧ b.opnd = 0#64 ∧ b.result = 0#64 ∧
    b.tvalid = false ∧ b.eOp = false ∧ b.eRsv = false ∧ b.eTab = false ∧ b.eNb = false ∧ b.eRb = false ∧
    b.cause = 0#4

/-- Writing the word `w` to CMD in this state is rejected with the error `e`: the decoder names it, or it is E_TAB, for
a TABB or TRD while TVALID is 0 (60_exceptions.md R190, R191). -/
def Rejects (w : Word) (s : State) (e : CmdError) : Prop :=
  decode w = .error e ∨
    (e = .eTab ∧ s.block.tvalid = false ∧ ∃ d, decode w = .ok (.tabb d) ∨ decode w = .ok (.trd d))

/-- "No command was rejected": STATUS bits 5:1 are 0 (60_exceptions.md R196). -/
abbrev State.NoError (s : State) : Prop := s.block.noError = true

/-- Every architectural register, flag and table entry the same, but the table, and the table too while TVALID is 1:
what a host can tell apart (10_state.md R37, R41). -/
abbrev Block.SameButHiddenTable {S : Nat} (a b : Block S) : Prop :=
  { a with table := b.table } = b ∧ (a.tvalid = true → a.table = b.table)

/-- The bits of a byte in message bit order (41_bit_engine.md R108), the first `n` of them: bit 0 upward when REFIN is
1, bit 7 downward when it is 0. -/
def messageBits (refin : Bool) (b : Byte) (n : Nat) : List Bool :=
  (List.range n).map fun i => if refin then b.getLsbD i else b.getLsbD (7 - i)

/-- The message bits of whole bytes, in message order. -/
def messageBitsOf (refin : Bool) (d : List Byte) : List Bool :=
  d.flatMap fun b => messageBits refin b 8

/-- One bit `x` through the bit-serial CRC register (46_host_api.md R176), a `W`-bit register `c`. It is used only as
the right-hand side of laws. -/
def serialStep {S : Nat} (W : Nat) (refin : Bool) (poly : BitVec S) (c : BitVec W) (x : Bool) : BitVec W :=
  if refin then
    if c.getLsbD 0 ^^ x then (c >>> 1) ^^^ (reflect poly W).setWidth W else c >>> 1
  else
    if c.getLsbD (W - 1) ^^ x then (c <<< 1) ^^^ poly.setWidth W else c <<< 1

/-- The bit-serial CRC register after a sequence of message bits (46_host_api.md R176). -/
def serialCrc {S : Nat} (W : Nat) (refin : Bool) (poly : BitVec S) (c : BitVec W) (xs : List Bool) : BitVec W :=
  xs.foldl (serialStep W refin poly) c

/-- `CalcRemBit(d, seed)`: "fold BitByte over d starting from seed" (41_bit_engine.md R107). -/
def calcRemBit {S : Nat} (W : Nat) (refin : Bool) (poly seed : BitVec S) (d : List Byte) : BitVec S :=
  d.foldl (bitByte W refin poly) seed

/-- `CalcRemTab(d, seed)`: "fold TabByte over d starting from seed" (42_table.md R128). -/
def calcRemTab {S : Nat} (W : Nat) (refin : Bool) (t : Table S) (seed : BitVec S) (d : List Byte) : BitVec S :=
  d.foldl (tabByte W refin t) seed

/-- Data commands one after another, each the first `n` message bits of a byte: BITB for 8, SUBB for 1 to 7
(43_subbyte.md R144). -/
def feedChunks {S : Nat} (W : Nat) (refin : Bool) (poly seed : BitVec S) (chunks : List (Byte × Nat)) : BitVec S :=
  chunks.foldl (fun r c => if c.2 = 8 then bitByte W refin poly r c.1 else subBits W refin poly r c.1 c.2) seed

/-- The machine with a host program to issue. -/
abbrev State.issue (s : State) (events : List HostEvent) : State := { s with pending := events }

/-- `k` steps of the machine; a stop ends the run. -/
def run : Nat → State → Host.Outcome State Fault Refusal
  | 0, s => .next s
  | k + 1, s =>
    match step s with
    | .next t => run k t
    | .fault r => .fault r
    | .refused r => .refused r

end Sys2Proof.Machine
end

