-- ==== Sys2Proof/Certificates/Slice0/Obligations.lean ====
section
/-! DEFINITION. The statements for the provers. Each docstring names the rule or section of spec/ it formalises.
The block has no memory beside its table; a frame therefore speaks of every register, every STATUS field and the whole
table, and of the host's side (the events still to come and the values read). -/

open Sys2Proof Sys2Proof.Machine

/-! ### Instances, reset, steps -/

/-- 00_scope.md R2: the legal storage widths, `S >= W`, the refusal to build anything else, and the recommendation.
The bound `1 <= W` is R1's. -/
def Obligations.OnlyLegalInstancesAreBuilt : Prop :=
  (∀ W S : Nat, Instance.build? W S = none ↔ ¬ (1 ≤ W ∧ W ≤ S ∧ (S = 8 ∨ S = 16 ∨ S = 32 ∨ S = 64))) ∧
  (∀ (W S : Nat) (c : Instance), Instance.build? W S = some c → c.W = W ∧ c.S = S) ∧
  (∀ c : Instance, Instance.build? c.W c.S = some c ∧ c.W ≤ c.S ∧ c.W ≤ 64) ∧
  (∀ W : Nat, 1 ≤ W → W ≤ 64 → ∃ r, recommendedStore W = some r ∧ W ≤ r ∧ (r = 8 ∨ r = 16 ∨ r = 32 ∨ r = 64) ∧
    ∀ S, W ≤ S → (S = 8 ∨ S = 16 ∨ S = 32 ∨ S = 64) → r ≤ S)

/-- 10_state.md R40, for the state after reset of every instance and for the reset event in every state. That the reset
event keeps the pending events and the values read is the model's own choice (DESIGN CHOICE, log entry 4). -/
def Obligations.ResetLeavesZeros : Prop :=
  (∀ c : Instance, (State.resetOf c).block.InResetCondition ∧
    (regRead 0 (State.resetOf c)).toNat = c.S * 256 + c.W) ∧
  (∀ (s : State) (rest : List HostEvent), ∃ t, step (s.issue (.reset :: rest)) = .next t ∧
    t.block.InResetCondition ∧ (regRead 0 t).toNat = s.inst.S * 256 + s.inst.W ∧
    t.inst = s.inst ∧ t.pending = rest ∧ t.replies = s.replies)

/-- The invariant holds after reset of every instance, the interface's reset state among them. -/
def Obligations.InvariantHoldsAtReset : Prop :=
  (∀ c : Instance, (State.resetOf c).Inv) ∧ State.reset.Inv

/-- Every step keeps the invariant: a valid table is the table of the current POLY and REFIN (10_state.md R31, in the
reading of log entry 5), CAUSE is a code up to 5, and CAUSE is 0 exactly while no error bit is set (R33). -/
def Obligations.StepKeepsInvariant : Prop :=
  ∀ s t : State, s.Inv → step s = .next t → t.Inv

/-- 20_memory.md R63: every access completes in its own step, none is refused, and with nothing to do the block is idle
for ever. Every step keeps the instance (00_scope.md R1). -/
def Obligations.EveryAccessCompletesInItsStep : Prop :=
  (∀ (s : State) (e : HostEvent) (rest : List HostEvent),
    ∃ t, step (s.issue (e :: rest)) = .next t ∧ t.pending = rest ∧ t.inst = s.inst) ∧
  (∀ s : State, step (s.issue []) = .next (s.issue []))

/-- A host program of finitely many accesses runs in exactly that many steps (70_reset_and_hazards.md section 4, the
spec's own inference). -/
def Obligations.HostProgramsEnd : Prop :=
  ∀ (s : State) (k : Nat), k ≤ s.pending.length →
    ∃ t, run k s = .next t ∧ t.pending = s.pending.drop k ∧ (t.pending = [] ↔ k = s.pending.length)

/-- What a host cannot see (10_state.md section 6, the spec's own inference; it is what makes the choice of log entry 3
harmless): two states that differ only in the table, while TVALID is 0, take every step alike, give the host the same
values, and differ afterwards at most in a table the host still cannot see. -/
def Obligations.HiddenTableIsNeverObserved : Prop :=
  ∀ (s : State) (b : Block s.inst.S), s.block.SameButHiddenTable b →
    ∃ (c d : Block s.inst.S) (evs : List HostEvent) (rs : List Word),
      step s = .next ⟨s.inst, c, evs, rs⟩ ∧ step (s.withBlock b) = .next ⟨s.inst, d, evs, rs⟩ ∧
        c.SameButHiddenTable d

/-! ### The port -/

/-- 10_state.md R29: a write to CMD runs the command its word encodes, in the same step; a read of CMD returns 0 and
has no effect. -/
def Obligations.CmdWriteRunsTheCommand : Prop :=
  (∀ (s : State) (rest : List HostEvent) (w : Word) (i : Instr), decode w = .ok i →
    step (s.issue (.write 8 w :: rest)) = exec i (s.issue rest)) ∧
  (∀ (s : State) (rest : List HostEvent),
    step (s.issue (.read 8 :: rest)) = .next { s.issue rest with replies := s.replies ++ [0] })

/-- The host interface's fetch: the very next step runs the command the table's word encodes, and what was pending
stays pending (log entry 2). -/
def Obligations.FetchWordRunsNext : Prop :=
  ∀ (s : State) (nbits w : Nat) (i : Instr), decodeTableWord nbits w = some i →
    step (s.withFetchWord nbits w) = exec i s

/-- 20_memory.md R56: a read has no side effect at any index, and reads are idempotent: two reads of an index with any
reads and no write between them return the same value. -/
def Obligations.ReadsHaveNoSideEffect : Prop :=
  ∀ (s : State) (i : BitVec 4), ∃ v : Word,
    (∀ rest : List HostEvent,
      step (s.issue (.read i :: rest)) = .next { s.issue rest with replies := s.replies ++ [v] }) ∧
    ∀ (js : List (BitVec 4)) (rest : List HostEvent), ∃ vs : List Word,
      run (js.length + 2) (s.issue (.read i :: js.map .read ++ .read i :: rest)) =
        .next { s.issue rest with replies := s.replies ++ v :: vs ++ [v] }

/-- What a read event gives the host, as a number, at every index (10_state.md R21 to R30, R33), and that it changes
nothing else. -/
def Obligations.ReadValues : Prop :=
  ∀ (s : State) (i : BitVec 4) (rest : List HostEvent), ∃ v : Word,
    step (s.issue (.read i :: rest)) = .next { s.issue rest with replies := s.replies ++ [v] } ∧ v.toNat =
    match i.toNat with
    | 0 => s.inst.S * 256 + s.inst.W
    | 1 => s.block.cfg.toNat
    | 2 => s.block.poly.toNat
    | 3 => s.block.init.toNat
    | 4 => s.block.xorout.toNat
    | 5 => s.block.rem.toNat
    | 6 => s.block.opnd.toNat
    | 7 => s.block.result.toNat
    | 9 => s.block.cause.toNat * 256 + s.block.eRb.toNat * 32 + s.block.eNb.toNat * 16 + s.block.eTab.toNat * 8 +
        s.block.eRsv.toNat * 4 + s.block.eOp.toNat * 2 + s.block.tvalid.toNat
    | _ => 0

/-- 20_memory.md R54: a narrow register keeps the low bits of what is written, and reads back zero-extended. -/
def Obligations.NarrowRegistersTruncate : Prop :=
  ∀ (s : State) (rest : List HostEvent) (v : Word) (i : BitVec 4), 1 ≤ i.toNat → i.toNat ≤ 5 →
    ∃ t, run 2 (s.issue (.write i v :: .read i :: rest)) = .next t ∧ t.pending = rest ∧
      t.replies = s.replies ++ [BitVec.ofNat 64 (v.toNat % 2 ^ (if i.toNat = 1 then 2 else s.inst.S))]

/-- The effect of a host write at every storing index, and that it changes nothing else (10_state.md R22 to R27;
20_memory.md R57): CFG and POLY clear TVALID, INIT, XOROUT, REM and OPND do not. -/
def Obligations.RegisterWriteEffects : Prop :=
  ∀ (s : State) (rest : List HostEvent) (v : Word),
    step (s.issue (.write 1 v :: rest)) =
      .next ((s.issue rest).withBlock { s.block with cfg := BitVec.ofNat 2 v.toNat, tvalid := false }) ∧
    step (s.issue (.write 2 v :: rest)) =
      .next ((s.issue rest).withBlock { s.block with poly := BitVec.ofNat s.inst.S v.toNat, tvalid := false }) ∧
    step (s.issue (.write 3 v :: rest)) =
      .next ((s.issue rest).withBlock { s.block with init := BitVec.ofNat s.inst.S v.toNat }) ∧
    step (s.issue (.write 4 v :: rest)) =
      .next ((s.issue rest).withBlock { s.block with xorout := BitVec.ofNat s.inst.S v.toNat }) ∧
    step (s.issue (.write 5 v :: rest)) =
      .next ((s.issue rest).withBlock { s.block with rem := BitVec.ofNat s.inst.S v.toNat }) ∧
    step (s.issue (.write 6 v :: rest)) = .next ((s.issue rest).withBlock { s.block with opnd := v })

/-- 10_state.md R30, and the same for a write to the read-only registers ID and RESULT (R21, R28). -/
def Obligations.ReservedAndReadOnlyIndices : Prop :=
  (∀ (s : State) (rest : List HostEvent) (i : BitVec 4) (v : Word), 10 ≤ i.toNat →
    step (s.issue (.read i :: rest)) = .next { s.issue rest with replies := s.replies ++ [0] } ∧
    step (s.issue (.write i v :: rest)) = .next (s.issue rest)) ∧
  (∀ (s : State) (rest : List HostEvent) (v : Word),
    step (s.issue (.write 0 v :: rest)) = .next (s.issue rest) ∧
    step (s.issue (.write 7 v :: rest)) = .next (s.issue rest))

/-- The write-1-to-clear of STATUS (10_state.md R33, its second half): the written error bits are cleared, CAUSE is
cleared when none is left, and nothing else changes. -/
def Obligations.StatusWriteClears : Prop :=
  ∀ (s : State) (rest : List HostEvent) (v : Word), ∃ b : Block s.inst.S,
    step (s.issue (.write 9 v :: rest)) = .next ((s.issue rest).withBlock b) ∧
    b.eOp = (s.block.eOp && !v.getLsbD 1) ∧ b.eRsv = (s.block.eRsv && !v.getLsbD 2) ∧
    b.eTab = (s.block.eTab && !v.getLsbD 3) ∧ b.eNb = (s.block.eNb && !v.getLsbD 4) ∧
    b.eRb = (s.block.eRb && !v.getLsbD 5) ∧
    ((b.eOp = false ∧ b.eRsv = false ∧ b.eTab = false ∧ b.eNb = false ∧ b.eRb = false) → b.cause = 0#4) ∧
    ((b.eOp = true ∨ b.eRsv = true ∨ b.eTab = true ∨ b.eNb = true ∨ b.eRb = true) → b.cause = s.block.cause) ∧
    b.cfg = s.block.cfg ∧ b.poly = s.block.poly ∧ b.init = s.block.init ∧ b.xorout = s.block.xorout ∧
    b.rem = s.block.rem ∧ b.opnd = s.block.opnd ∧ b.result = s.block.result ∧ b.tvalid = s.block.tvalid ∧
    b.table = s.block.table

/-- CLRERR (30_encoding.md section 5) leaves no error and a STATUS that reads as TVALID alone
(70_reset_and_hazards.md section 1). -/
def Obligations.ClrErrClearsEveryError : Prop :=
  ∀ (s : State) (rest : List HostEvent), ∃ t,
    run 2 (s.issue (AsmLine.clrerr.expand ++ .read 9 :: rest)) = .next t ∧ t.NoError ∧ t.block.cause = 0#4 ∧
      t.block.tvalid = s.block.tvalid ∧ t.replies = s.replies ++ [if s.block.tvalid then 1 else 0]

/-! ### Who may change what -/

/-- What sets and what clears TVALID, and that "no other event changes it" (10_state.md R31, those sentences of it). -/
def Obligations.OnlyTheseEventsChangeTvalid : Prop :=
  ∀ (s t : State) (e : HostEvent) (rest : List HostEvent), step (s.issue (e :: rest)) = .next t →
    ((∃ w, e = .write 8 w ∧ decode w = .ok .build) → t.block.tvalid = true) ∧
    ((e = .reset ∨ ∃ v, e = .write 1 v ∨ e = .write 2 v) → t.block.tvalid = false) ∧
    (¬ (∃ w, e = .write 8 w ∧ decode w = .ok .build) → ¬ (e = .reset ∨ ∃ v, e = .write 1 v ∨ e = .write 2 v) →
      t.block.tvalid = s.block.tvalid)

/-- Every event changes only the registers the spec lets it change (10_state.md R22 to R28 and R34): each configuration
register its own write, OPND a write (no command), REM a write or SEED, BITB, TABB, SUBB, UNFIN, RESULT only FIN, REFL
and TRD, the table only BUILD; and reset. The values the host has read grow only by a read. -/
def Obligations.OnlyTheseEventsChangeRegisters : Prop :=
  ∀ (s t : State) (e : HostEvent) (rest : List HostEvent), step (s.issue (e :: rest)) = .next t →
    ∃ (b : Block s.inst.S) (rs : List Word), t = ⟨s.inst, b, rest, rs⟩ ∧
      (b.cfg ≠ s.block.cfg → e = .reset ∨ ∃ v, e = .write 1 v) ∧
      (b.poly ≠ s.block.poly → e = .reset ∨ ∃ v, e = .write 2 v) ∧
      (b.init ≠ s.block.init → e = .reset ∨ ∃ v, e = .write 3 v) ∧
      (b.xorout ≠ s.block.xorout → e = .reset ∨ ∃ v, e = .write 4 v) ∧
      (b.opnd ≠ s.block.opnd → e = .reset ∨ ∃ v, e = .write 6 v) ∧
      (b.rem ≠ s.block.rem → e = .reset ∨ (∃ v, e = .write 5 v) ∨
        ∃ w i, e = .write 8 w ∧ decode w = .ok i ∧
          (i = .seed ∨ (∃ d, i = .bitb d ∨ i = .tabb d) ∨ (∃ d n, i = .subb d n) ∨ ∃ m, i = .unfin m)) ∧
      (b.result ≠ s.block.result → e = .reset ∨
        ∃ w i, e = .write 8 w ∧ decode w = .ok i ∧ ((∃ m, i = .fin m) ∨ (∃ k, i = .refl k) ∨ ∃ d, i = .trd d)) ∧
      (b.table ≠ s.block.table → e = .reset ∨ ∃ w, e = .write 8 w ∧ decode w = .ok .build) ∧
      (rs ≠ s.replies → ∃ i, e = .read i)

/-! ### Decoding, checks and rejections -/

/-- Decode and encode agree: no field of a command is dropped (30_encoding.md sections 1 to 4). -/
def Obligations.DecodeOfEncode : Prop :=
  ∀ i : Instr, i.wf = true → decode (encode i) = .ok i

/-- 30_encoding.md R73: any value in the fields an opcode does not use gives the same result as 0; not so for the
reserved bits. -/
def Obligations.UnusedFieldsAreIgnored : Prop :=
  (∀ (i : Instr) (u : Word), u &&& (rsvMask ||| i.usedBits) = 0 → decode (encode i ||| u) = decode (encode i)) ∧
  (∀ (i : Instr) (u : Word), u &&& 0xF = 0 → u &&& rsvMask ≠ 0 → decode (encode i ||| u) = .error .eRsv)

/-- The decoder accepts only words of the opcode map, with legal fields, and reads the fields the word holds
(30_encoding.md section 3: `w AND (0xF OR RSV) = OP`). -/
def Obligations.DecodedWordsMatchTheTable : Prop :=
  ∀ (w : Word) (i : Instr), decode w = .ok i →
    i.wf = true ∧ w &&& 0xFFFFFFFF80F800CF = i.opcode.setWidth 64 ∧ encode i = w &&& i.usedBits

/-- Words written out from the spec (30_encoding.md section 5, its examples, and 95_test_vectors.md section 2). -/
def Obligations.DecodeOfExampleWords : Prop :=
  decode 0x0 = .ok .nop ∧ decode 0x1 = .ok .seed ∧ decode 0x3102 = .ok (.bitb 0x31) ∧
  decode 0x3103 = .ok (.tabb 0x31) ∧ decode 0x47004 = .ok (.subb 0x70 4) ∧ decode 0x25 = .ok (.fin .auto) ∧
  decode 0x16 = .ok (.unfin .refl) ∧ decode 0x20000007 = .ok (.refl 32) ∧ decode 0x8 = .ok .build ∧
  decode 0xFF09 = .ok (.trd 0xFF) ∧ decode 0xA = .error .eOp ∧ decode 0xC3 = .error .eRsv ∧
  decode 0x4 = .error .eNb ∧ decode 0x41000007 = .error .eRb ∧ decode 0x36 = .error .eRsv

/-- 60_exceptions.md R191, as it stands: the checks in their order, with the fields as numbers of the word, and the
command of OP when all pass. -/
def Obligations.ChecksStandInOrder : Prop :=
  ∀ (s : State) (rest : List HostEvent) (w : Word),
    step (s.issue (.write 8 w :: rest)) =
      (let t := s.issue rest
       let op := w.toNat % 16
       let rm := w.toNat / 2 ^ 4 % 4
       let data := BitVec.ofNat 8 (w.toNat / 2 ^ 8)
       let nb := w.toNat / 2 ^ 16 % 8
       let rb := w.toNat / 2 ^ 24 % 128
       let mode := if rm = 0 then ReflMode.none else if rm = 1 then .refl else .auto
       if 0xA ≤ op then .next (reject .eOp t)
       else if w &&& 0xFFFFFFFF80F800C0 ≠ 0 then .next (reject .eRsv t)
       else if (op = 5 ∨ op = 6) ∧ rm = 3 then .next (reject .eRsv t)
       else if op = 4 ∧ nb = 0 then .next (reject .eNb t)
       else if op = 7 ∧ 64 < rb then .next (reject .eRb t)
       else if (op = 3 ∨ op = 9) ∧ s.block.tvalid = false then .next (reject .eTab t)
       else if op = 0 then exec .nop t
       else if op = 1 then exec .seed t
       else if op = 2 then exec (.bitb data) t
       else if op = 3 then exec (.tabb data) t
       else if op = 4 then exec (.subb data (BitVec.ofNat 3 nb)) t
       else if op = 5 then exec (.fin mode) t
       else if op = 6 then exec (.unfin mode) t
       else if op = 7 then exec (.refl (BitVec.ofNat 7 rb)) t
       else if op = 8 then exec .build t
       else exec (.trd data) t)

/-- 60_exceptions.md R192: a rejected command sets its error bit and writes its code to CAUSE, and changes nothing
else. The codes are those of R190. -/
def Obligations.RejectedCommandChangesTwoThings : Prop :=
  ∀ (s : State) (rest : List HostEvent) (w : Word) (e : CmdError), Rejects w s e →
    step (s.issue (.write 8 w :: rest)) = .next ((s.issue rest).withBlock { s.block with
      eOp := s.block.eOp || decide (e = .eOp)
      eRsv := s.block.eRsv || decide (e = .eRsv)
      eTab := s.block.eTab || decide (e = .eTab)
      eNb := s.block.eNb || decide (e = .eNb)
      eRb := s.block.eRb || decide (e = .eRb)
      cause := match e with
        | .eOp => 1
        | .eRsv => 2
        | .eTab => 3
        | .eNb => 4
        | .eRb => 5 })

/-- 10_state.md R32: a rejection sets the one bit its error names; a command that is not rejected changes no error bit
(nor CAUSE); and pending error bits do not stop a later command, nor change what it does. -/
def Obligations.ErrorBitsAreSticky : Prop :=
  (∀ (s t : State) (rest : List HostEvent) (w : Word) (e : CmdError), Rejects w s e →
    step (s.issue (.write 8 w :: rest)) = .next t →
      t.block.eOp = (s.block.eOp || decide (e = .eOp)) ∧ t.block.eRsv = (s.block.eRsv || decide (e = .eRsv)) ∧
      t.block.eTab = (s.block.eTab || decide (e = .eTab)) ∧ t.block.eNb = (s.block.eNb || decide (e = .eNb)) ∧
      t.block.eRb = (s.block.eRb || decide (e = .eRb))) ∧
  (∀ (s t : State) (rest : List HostEvent) (w : Word), (∀ e, ¬ Rejects w s e) →
    step (s.issue (.write 8 w :: rest)) = .next t →
      t.block.eOp = s.block.eOp ∧ t.block.eRsv = s.block.eRsv ∧ t.block.eTab = s.block.eTab ∧
      t.block.eNb = s.block.eNb ∧ t.block.eRb = s.block.eRb ∧ t.block.cause = s.block.cause) ∧
  (∀ (s : State) (rest : List HostEvent) (w : Word) (b : Block s.inst.S) (o r a n k : Bool) (c : BitVec 4),
    (∀ e, ¬ Rejects w s e) → step (s.issue (.write 8 w :: rest)) = .next ((s.issue rest).withBlock b) →
      step ((s.withBlock
          { s.block with eOp := o, eRsv := r, eTab := a, eNb := n, eRb := k, cause := c }).issue (.write 8 w :: rest)) =
        .next ((s.issue rest).withBlock
          { b with eOp := o, eRsv := r, eTab := a, eNb := n, eRb := k, cause := c }))

/-- The commands with illegal fields, given to the meanings themselves, are rejected as their rules say (40_reflect.md
R92, 43_subbyte.md R142, 44_finalize.md R153 and R154, the `raise` lines of each). -/
def Obligations.IllegalFieldsAreRejected : Prop :=
  ∀ s : State,
    (∀ d, exec (.subb d 0) s = .next (reject .eNb s)) ∧
    exec (.fin .reserved) s = .next (reject .eRsv s) ∧
    exec (.unfin .reserved) s = .next (reject .eRsv s) ∧
    (∀ k : BitVec 7, 64 < k.toNat → exec (.refl k) s = .next (reject .eRb s))

/-! ### The commands: what each does, and that it completes -/

/-- NOP (45_control.md R165): no state changes, whatever the fields NOP does not use hold; with a reserved bit set it is
rejected with E_RSV, "the only effect a NOP word can have". -/
def Obligations.NopChangesNothing : Prop :=
  (∀ s : State, exec .nop s = .next s) ∧
  (∀ (s : State) (rest : List HostEvent) (w : Word), w &&& 0xF = 0 →
    step (s.issue (.write 8 w :: rest)) =
      if w &&& 0xFFFFFFFF80F800C0 = 0 then .next (s.issue rest) else .next (reject .eRsv (s.issue rest)))

/-- SEED (45_control.md R166): REM takes INIT as stored, and nothing else changes. -/
def Obligations.SeedCopiesInit : Prop :=
  ∀ s : State, exec .seed s = .next (s.withBlock { s.block with rem := s.block.init })

/-- 41_bit_engine.md section 3: BITB folds the byte in at the regime's place and takes 8 steps, whatever TVALID is;
nothing but REM changes. The fold positions are the spec's own, as it says there ("the source gives no number") and in
93_implementation_defined.md G1. -/
def Obligations.BitbTakesEightSteps : Prop :=
  ∀ (s : State) (d : Byte),
    let W := s.inst.W
    let right := fun r : BitVec s.inst.S =>
      if r.getLsbD 0 then (r >>> 1) ^^^ reflect s.block.poly W else r >>> 1
    let left := fun (p : BitVec s.inst.S) (bit : Nat) (r : BitVec s.inst.S) =>
      if r.getLsbD bit then (r <<< 1) ^^^ p else r <<< 1
    let v : BitVec s.inst.S :=
      if s.block.refin then right^[8] (s.block.rem ^^^ d.setWidth s.inst.S)
      else if 8 ≤ W then (left s.block.poly (W - 1))^[8] (s.block.rem ^^^ d.setWidth s.inst.S <<< (W - 8))
      else (left (s.block.poly <<< (8 - W)) 7)^[8] (s.block.rem <<< (8 - W) ^^^ d.setWidth s.inst.S) >>> (8 - W)
    exec (.bitb d) s = .next (s.withBlock { s.block with rem := v })

/-- SUBB (43_subbyte.md sections 1 and 2): the same with the bits outside the first `n` cleared and `n` steps; nothing
but REM changes. The fold positions are BITB's, the spec's own (93_implementation_defined.md G1). -/
def Obligations.SubbTakesNbSteps : Prop :=
  ∀ (s : State) (d : Byte) (nb : BitVec 3), nb ≠ 0 →
    let W := s.inst.W
    let n := nb.toNat
    let low := (d &&& BitVec.ofNat 8 (2 ^ n - 1)).setWidth s.inst.S
    let top := (d &&& (0xFF#8 <<< (8 - n))).setWidth s.inst.S
    let right := fun r : BitVec s.inst.S =>
      if r.getLsbD 0 then (r >>> 1) ^^^ reflect s.block.poly W else r >>> 1
    let left := fun (p : BitVec s.inst.S) (bit : Nat) (r : BitVec s.inst.S) =>
      if r.getLsbD bit then (r <<< 1) ^^^ p else r <<< 1
    let v : BitVec s.inst.S :=
      if s.block.refin then right^[n] (s.block.rem ^^^ low)
      else if 8 ≤ W then (left s.block.poly (W - 1))^[n] (s.block.rem ^^^ top <<< (W - 8))
      else (left (s.block.poly <<< (8 - W)) 7)^[n] (s.block.rem <<< (8 - W) ^^^ top) >>> (8 - W)
    exec (.subb d nb) s = .next (s.withBlock { s.block with rem := v })

/-- TABB (42_table.md sections 3 and 4): while TVALID is 1, one lookup combined with a shift of the remainder, and
nothing but REM changes; while it is 0, E_TAB. The index and the shift of each regime are the spec's own, as it says
there ("The index and shift of each regime are this spec's") and in 93_implementation_defined.md G2. -/
def Obligations.TabbTakesOneLookup : Prop :=
  ∀ (s : State) (d : Byte),
    let W := s.inst.W
    let T := fun x : BitVec s.inst.S => s.block.table[(x.setWidth 8).toNat]'(x.setWidth 8).isLt
    let v : BitVec s.inst.S :=
      if s.block.refin then s.block.rem >>> 8 ^^^ T (s.block.rem ^^^ d.setWidth s.inst.S)
      else if 8 ≤ W then s.block.rem <<< 8 ^^^ T (s.block.rem >>> (W - 8) ^^^ d.setWidth s.inst.S)
      else T (s.block.rem <<< (8 - W) ^^^ d.setWidth s.inst.S) >>> (8 - W)
    (s.block.tvalid = true → exec (.tabb d) s = .next (s.withBlock { s.block with rem := v })) ∧
    (s.block.tvalid = false → exec (.tabb d) s = .next (reject .eTab s))

/-- TRD (42_table.md R126): while TVALID is 1, RESULT takes the entry, zero-extended, and nothing else changes; while
it is 0, E_TAB. -/
def Obligations.TrdReadsOneEntry : Prop :=
  ∀ (s : State) (d : Byte),
    (s.block.tvalid = true → exec (.trd d) s =
      .next (s.withBlock { s.block with result := BitVec.ofNat 64 (s.block.table[d.toNat]'d.isLt).toNat })) ∧
    (s.block.tvalid = false → exec (.trd d) s = .next (reject .eTab s))

/-- 42_table.md R120: BUILD writes, for every byte value, the REM that BITB leaves from a zero REM, masked to `W` bits
and in NARROW shifted up by `8 - W`; the entries depend only on POLY, REFIN and `W`, whatever else the block holds; it
sets TVALID, and nothing else changes. -/
def Obligations.BuildWritesEveryEntry : Prop :=
  ∀ s : State, ∃ T : Table s.inst.S,
    (∀ b : Block s.inst.S, b.poly = s.block.poly → b.refin = s.block.refin →
      exec .build (s.withBlock b) = .next (s.withBlock { b with table := T, tvalid := true })) ∧
    ∀ b : Byte, ∃ v : BitVec s.inst.S,
      exec (.bitb b) (s.withBlock { s.block with rem := 0#s.inst.S }) = .next (s.withBlock { s.block with rem := v }) ∧
      (T[b.toNat]'b.isLt).toNat =
        if s.block.refin = false ∧ s.inst.W < 8 then v.toNat % 2 ^ s.inst.W * 2 ^ (8 - s.inst.W)
        else v.toNat % 2 ^ s.inst.W

/-- FIN (44_finalize.md R150 and R152, bit by bit): bit `i` of RESULT below `W` is the remainder's bit `i`, or its bit
`W - 1 - i` when the effective reflect flag is 1, XOR bit `i` of XOROUT; the bits at or above `W` are 0; nothing but
RESULT changes. Mode 3 is rejected with E_RSV. -/
def Obligations.FinGivesTheChecksumBits : Prop :=
  (∀ (s : State) (m : ReflMode), m ≠ .reserved → ∃ v : Word,
    exec (.fin m) s = .next (s.withBlock { s.block with result := v }) ∧
    ∀ i, i < 64 → v.getLsbD i = (decide (i < s.inst.W) &&
      ((if m = .refl ∨ (m = .auto ∧ s.block.refin ≠ s.block.refout) then s.block.rem.getLsbD (s.inst.W - 1 - i)
        else s.block.rem.getLsbD i) ^^ s.block.xorout.getLsbD i))) ∧
  (∀ s : State, exec (.fin .reserved) s = .next (reject .eRsv s))

/-- UNFIN (44_finalize.md R151, bit by bit): REM takes OPND's low `W` bits XOR XOROUT, as `S` bits, with its low `W`
bits reflected and the others 0 when the effective reflect flag is 1; nothing but REM changes. -/
def Obligations.UnfinRecoversTheRemainderBits : Prop :=
  ∀ (s : State) (m : ReflMode), m ≠ .reserved → ∃ v : BitVec s.inst.S,
    exec (.unfin m) s = .next (s.withBlock { s.block with rem := v }) ∧
    ∀ i, i < s.inst.S → v.getLsbD i =
      if m = .refl ∨ (m = .auto ∧ s.block.refin ≠ s.block.refout) then
        decide (i < s.inst.W) && (s.block.opnd.getLsbD (s.inst.W - 1 - i) ^^ s.block.xorout.getLsbD (s.inst.W - 1 - i))
      else (decide (i < s.inst.W) && s.block.opnd.getLsbD i) ^^ s.block.xorout.getLsbD i

/-- 40_reflect.md R90, for every width and count, and REFL (R92): RESULT takes OPND reflected over RB bits, for every
RB up to 64, and nothing else changes. -/
def Obligations.ReflectReversesTheLowBits : Prop :=
  (∀ (N : Nat) (v : BitVec N) (n i : Nat), n ≤ N → i < N →
    (reflect v n).getLsbD i = if i < n then v.getLsbD (n - 1 - i) else false) ∧
  (∀ (s : State) (rb : BitVec 7), rb.toNat ≤ 64 → ∃ v : Word,
    exec (.refl rb) s = .next (s.withBlock { s.block with result := v }) ∧
    ∀ i, i < 64 → v.getLsbD i = if i < rb.toNat then s.block.opnd.getLsbD (rb.toNat - 1 - i) else false)

/-! ### Frames -/

/-- What the commands that write REM leave unchanged: every other register, every STATUS field, the whole table, the
instance and the host's side (41_bit_engine.md R106, 42_table.md R125, 43_subbyte.md R142, 44_finalize.md R154,
45_control.md R166). TABB is named while TVALID is 1; otherwise it is rejected. -/
def Obligations.FrameOfRemCommands : Prop :=
  ∀ (s t : State) (i : Instr), i.wf = true →
    (i = .seed ∨ (∃ d, i = .bitb d) ∨ (∃ d, i = .tabb d ∧ s.block.tvalid = true) ∨ (∃ d n, i = .subb d n) ∨
      ∃ m, i = .unfin m) →
    exec i s = .next t → ∃ b : Block s.inst.S, t = ⟨s.inst, b, s.pending, s.replies⟩ ∧
      b.cfg = s.block.cfg ∧ b.poly = s.block.poly ∧ b.init = s.block.init ∧ b.xorout = s.block.xorout ∧
      b.opnd = s.block.opnd ∧ b.result = s.block.result ∧ b.tvalid = s.block.tvalid ∧ b.eOp = s.block.eOp ∧
      b.eRsv = s.block.eRsv ∧ b.eTab = s.block.eTab ∧ b.eNb = s.block.eNb ∧ b.eRb = s.block.eRb ∧
      b.cause = s.block.cause ∧ ∀ x : Byte, readTable b.table x = readTable s.block.table x

/-- What the commands that write RESULT, and BUILD, leave unchanged (40_reflect.md R92, 42_table.md R122 and R126,
44_finalize.md R153). TRD is named while TVALID is 1; otherwise it is rejected. -/
def Obligations.FrameOfResultCommandsAndBuild : Prop :=
  (∀ (s t : State) (i : Instr), i.wf = true →
    ((∃ m, i = .fin m) ∨ (∃ k, i = .refl k) ∨ (∃ d, i = .trd d ∧ s.block.tvalid = true)) →
    exec i s = .next t → ∃ b : Block s.inst.S, t = ⟨s.inst, b, s.pending, s.replies⟩ ∧
      b.cfg = s.block.cfg ∧ b.poly = s.block.poly ∧ b.init = s.block.init ∧ b.xorout = s.block.xorout ∧
      b.rem = s.block.rem ∧ b.opnd = s.block.opnd ∧ b.tvalid = s.block.tvalid ∧ b.eOp = s.block.eOp ∧
      b.eRsv = s.block.eRsv ∧ b.eTab = s.block.eTab ∧ b.eNb = s.block.eNb ∧ b.eRb = s.block.eRb ∧
      b.cause = s.block.cause ∧ ∀ x : Byte, readTable b.table x = readTable s.block.table x) ∧
  (∀ s t : State, exec .build s = .next t → ∃ b : Block s.inst.S, t = ⟨s.inst, b, s.pending, s.replies⟩ ∧
      b.cfg = s.block.cfg ∧ b.poly = s.block.poly ∧ b.init = s.block.init ∧ b.xorout = s.block.xorout ∧
      b.rem = s.block.rem ∧ b.opnd = s.block.opnd ∧ b.result = s.block.result ∧ b.eOp = s.block.eOp ∧
      b.eRsv = s.block.eRsv ∧ b.eTab = s.block.eTab ∧ b.eNb = s.block.eNb ∧ b.eRb = s.block.eRb ∧
      b.cause = s.block.cause)

/-! ### Laws of the units (each one the spec's own inference from its rules) -/

/-- The laws of Reflect (40_reflect.md section 1). -/
def Obligations.ReflectLaws : Prop :=
  ∀ (N : Nat) (v : BitVec N) (n : Nat), n ≤ N →
    (reflect v n).toNat < 2 ^ n ∧ reflect (reflect v n) n = v &&& BitVec.ofNat N (2 ^ n - 1) ∧
    reflect v 0 = 0#N ∧ reflect (v &&& BitVec.ofNat N (2 ^ n - 1)) n = reflect v n

/-- The branch and the branchless forms of the steps give the same byte result (41_bit_engine.md section 6). -/
def Obligations.BranchlessFormsAgree : Prop :=
  ∀ (c : Instance) (refin : Bool) (poly r : BitVec c.S) (b : Byte),
    let right := fun x : BitVec c.S => (x >>> 1) ^^^ BitVec.ofNat c.S (x.getLsbD 0).toNat * reflect poly c.W
    let left := fun (p : BitVec c.S) (bit : Nat) (x : BitVec c.S) =>
      (x <<< 1) ^^^ BitVec.ofNat c.S (x.getLsbD bit).toNat * p
    bitByte c.W refin poly r b =
      if refin then right^[8] (r ^^^ b.setWidth c.S)
      else if 8 ≤ c.W then (left poly (c.W - 1))^[8] (r ^^^ b.setWidth c.S <<< (c.W - 8))
      else (left (poly <<< (8 - c.W)) 7)^[8] (r <<< (8 - c.W) ^^^ b.setWidth c.S) >>> (8 - c.W)

/-- Upper-bit flow and clean remainders (41_bit_engine.md section 6): in WIDE and NARROW the low `W` bits of the result
depend on the low `W` bits of REM alone; REFLECTED keeps a clean remainder clean, and so does NARROW with `S = 8`. -/
def Obligations.UpperBitsFlow : Prop :=
  (∀ (c : Instance) (poly r r' : BitVec c.S) (b : Byte),
    r.toNat % 2 ^ c.W = r'.toNat % 2 ^ c.W →
      (bitByte c.W false poly r b).toNat % 2 ^ c.W = (bitByte c.W false poly r' b).toNat % 2 ^ c.W) ∧
  (∀ (c : Instance) (poly r : BitVec c.S) (b : Byte), r.toNat < 2 ^ c.W →
    (bitByte c.W true poly r b).toNat < 2 ^ c.W) ∧
  (∀ (c : Instance) (poly r : BitVec c.S) (b : Byte), c.W < 8 → c.S = 8 → r.toNat < 2 ^ c.W →
    (bitByte c.W false poly r b).toNat < 2 ^ c.W)

/-- A byte given in two parts with SUBB is the byte given with BITB, on all of the state (43_subbyte.md section 3). -/
def Obligations.SplitByteIsWholeByte : Prop :=
  ∀ (s : State) (rest : List HostEvent) (d : Byte) (k : Nat), 1 ≤ k → k ≤ 7 →
    let d' := if s.block.refin then d >>> k else d <<< k
    run 2 (s.issue (commandEvent (.subb d (BitVec.ofNat 3 k)) ::
        commandEvent (.subb d' (BitVec.ofNat 3 (8 - k))) :: rest)) =
      run 1 (s.issue (commandEvent (.bitb d) :: rest))

/-- The bits of a partial byte that SUBB does not process do not affect it (43_subbyte.md section 1). -/
def Obligations.SubbIgnoresTheOtherBits : Prop :=
  ∀ (s : State) (d d' : Byte) (nb : BitVec 3),
    (∀ i, i < nb.toNat → if s.block.refin then d.getLsbD i = d'.getLsbD i else d.getLsbD (7 - i) = d'.getLsbD (7 - i)) →
    exec (.subb d nb) s = exec (.subb d' nb) s

/-- The laws of the table (42_table.md section 2), for a valid table in every state that meets the invariant. -/
def Obligations.TableLaws : Prop :=
  ∀ s : State, s.Inv → s.block.tvalid = true →
    readTable s.block.table 0 = 0#s.inst.S ∧
    (∀ a b : Byte, readTable s.block.table (a ^^^ b) = readTable s.block.table a ^^^ readTable s.block.table b) ∧
    (∀ b : Byte, s.block.refin = true ∨ 8 ≤ s.inst.W → (readTable s.block.table b).toNat < 2 ^ s.inst.W) ∧
    (∀ b : Byte, s.block.refin = false → s.inst.W < 8 → (readTable s.block.table b).toNat < 2 ^ 8 ∧
      ∀ i, i < 8 - s.inst.W → (readTable s.block.table b).getLsbD i = false)

/-- Finalize and UndoFinalize (44_finalize.md section 4): inverse on clean remainders, under the condition on XOROUT
when the flag is 0; inverse on checksums with no condition; and Finalize reads the low `W` bits alone. -/
def Obligations.FinalizeLaws : Prop :=
  ∀ (c : Instance) (xorout r : BitVec c.S) (x : Word),
    (r.toNat < 2 ^ c.W → undoFinalize c.W xorout ((finalize c.W xorout r true).setWidth 64) true = r) ∧
    (r.toNat < 2 ^ c.W → xorout.toNat < 2 ^ c.W →
      undoFinalize c.W xorout ((finalize c.W xorout r false).setWidth 64) false = r) ∧
    (r.toNat < 2 ^ c.W → (undoFinalize c.W xorout ((finalize c.W xorout r false).setWidth 64) false).toNat =
      r.toNat + xorout.toNat / 2 ^ c.W * 2 ^ c.W) ∧
    (∀ R, (finalize c.W xorout (undoFinalize c.W xorout x R) R).toNat = x.toNat % 2 ^ c.W) ∧
    (∀ R, finalize c.W xorout r R = finalize c.W xorout (r &&& BitVec.ofNat c.S (2 ^ c.W - 1)) R)

/-- Engine equivalence (42_table.md section 6, the spec's own inference): with a valid table, TABB and BITB leave
remainders that agree on bits `W-1:0`, and on all `S` bits when REFLECTED, when WIDE with `S = W`, and when NARROW with
`S = 8`. -/
def Obligations.EnginesAgree : Prop :=
  ∀ (s : State) (d : Byte), s.Inv → s.block.tvalid = true → ∃ x y : BitVec s.inst.S,
    exec (.tabb d) s = .next (s.withBlock { s.block with rem := x }) ∧
    exec (.bitb d) s = .next (s.withBlock { s.block with rem := y }) ∧
    x.toNat % 2 ^ s.inst.W = y.toNat % 2 ^ s.inst.W ∧
    ((s.block.refin = true ∨ (8 ≤ s.inst.W ∧ s.inst.S = s.inst.W) ∨ (s.inst.W < 8 ∧ s.inst.S = 8)) → x = y)

/-- The bit-serial reading (43_subbyte.md section 3, the spec's own inference): from a clean seed, any sequence of whole
bytes through the bit-by-bit engine and partial bytes through the sub-byte one leaves in bits `W-1:0` the bit-serial CRC
register of 46_host_api.md section 3 after all their message bits in message bit order. -/
def Obligations.EngineComputesTheBitSerialCrc : Prop :=
  ∀ (c : Instance) (refin : Bool) (poly seed : BitVec c.S) (chunks : List (Byte × Nat)),
    seed.toNat < 2 ^ c.W → (∀ p ∈ chunks, 1 ≤ p.2 ∧ p.2 ≤ 8) →
    (feedChunks c.W refin poly seed chunks).setWidth c.W =
      serialCrc c.W refin poly (seed.setWidth c.W) (chunks.flatMap fun p => messageBits refin p.1 p.2)

/-- The source's once-per-call forms (41_bit_engine.md section 5, 42_table.md section 6): in NARROW, shifting up once
before the first byte and down once after the last gives the same remainder as the per-command shifts, for a message
of at least one byte. -/
def Obligations.NarrowShiftsOncePerCall : Prop :=
  ∀ (c : Instance) (poly seed : BitVec c.S) (b : Byte) (d : List Byte), c.W < 8 →
    calcRemBit c.W false poly seed (b :: d) =
      ((b :: d).foldl (fun r x => (stepL (poly <<< (8 - c.W)) 7)^[8] (r ^^^ x.setWidth c.S))
        (seed <<< (8 - c.W))) >>> (8 - c.W) ∧
    calcRemTab c.W false (buildTable c.W false poly) seed (b :: d) =
      ((b :: d).foldl (fun r x => readTable (buildTable c.W false poly) ((r ^^^ x.setWidth c.S).setWidth 8))
        (seed <<< (8 - c.W))) >>> (8 - c.W)

/-! ### Host procedures -/

/-- 46_host_api.md R184: the three known answers. From every state of an instance with `S = W` of the rule's width, after
the rule's parameter set (and BUILD for the table engine), the byte procedure over the nine bytes 0x31 to 0x39 reads the
rule's check value, with either engine. -/
def Obligations.KnownCheckValues : Prop :=
  ∀ (s : State) (x : DataEngine) (evs : List HostEvent),
    calculate x [0x31, 0x32, 0x33, 0x34, 0x35, 0x36, 0x37, 0x38, 0x39] 9 = some evs →
    (s.inst.W = 8 → s.inst.S = 8 →
      let all := prepare x 0x07 0x00 0x00 false false ++ evs
      ∃ t, run all.length (s.issue all) = .next t ∧ t.replies = s.replies ++ [0xF4]) ∧
    (s.inst.W = 16 → s.inst.S = 16 →
      let all := prepare x 0x8005 0x0000 0x0000 true true ++ evs
      ∃ t, run all.length (s.issue all) = .next t ∧ t.replies = s.replies ++ [0xBB3D]) ∧
    (s.inst.W = 32 → s.inst.S = 32 →
      let all := prepare x 0x04C11DB7 0xFFFFFFFF 0xFFFFFFFF true true ++ evs
      ∃ t, run all.length (s.issue all) = .next t ∧ t.replies = s.replies ++ [0xCBF43926])

/-- Steps 1 and 2 of the order before a checksum (70_reset_and_hazards.md section 2; the PARAMS line of 30_encoding.md
section 5): from every state, the four parameter registers hold what was given, cut to their widths, and with BUILD
the table is valid and is theirs; REM, OPND, RESULT, each error bit and CAUSE are kept. -/
def Obligations.PreparationLeavesAReadyBlock : Prop :=
  ∀ (s : State) (x : DataEngine) (p i xo : Word) (ri ro : Bool), ∃ b : Block s.inst.S,
    run (prepare x p i xo ri ro).length (s.issue (prepare x p i xo ri ro)) = .next ((s.issue []).withBlock b) ∧
    b.poly.toNat = p.toNat % 2 ^ s.inst.S ∧ b.init.toNat = i.toNat % 2 ^ s.inst.S ∧
    b.xorout.toNat = xo.toNat % 2 ^ s.inst.S ∧ b.refin = ri ∧ b.refout = ro ∧
    (b.tvalid = true ↔ x = .table) ∧ b.TableMatches s.inst.W ∧ b.rem = s.block.rem ∧ b.opnd = s.block.opnd ∧
    b.result = s.block.result ∧ b.eOp = s.block.eOp ∧ b.eRsv = s.block.eRsv ∧ b.eTab = s.block.eTab ∧
    b.eNb = s.block.eNb ∧ b.eRb = s.block.eRb ∧ b.cause = s.block.cause

/-- A procedure whose length reaches past its buffer is refused, and no other (46_host_api.md section 4). -/
def Obligations.ProceduresRefuseOnlyPastTheBuffer : Prop :=
  ∀ (x : DataEngine) (prev : Word) (buf : List Byte) (n : Nat),
    (calculate x buf n = none ↔ buf.length < n) ∧ (continueFrom x prev buf n = none ↔ buf.length < n) ∧
    (calculateBits x buf n = none ↔ 8 * buf.length < n) ∧ (continueBits x prev buf n = none ↔ 8 * buf.length < n)

/-- A bit count that is a whole number of bytes is the byte procedure, access for access (46_host_api.md section 5). -/
def Obligations.WholeByteBitCountsNeedNoSubb : Prop :=
  ∀ (x : DataEngine) (prev : Word) (buf : List Byte) (k : Nat),
    calculateBits x buf (8 * k) = calculate x buf k ∧ continueBits x prev buf (8 * k) = continueFrom x prev buf k

/-- `Calculate` with BITB (46_host_api.md sections 1 and 3): from every state whose INIT is clean, and for every
message, the value the host reads is the finalized bit-serial CRC of the message, and the procedure takes its number
of accesses in steps. It rests on the spec's own inferences (43_subbyte.md section 3, 44_finalize.md section 4). -/
def Obligations.CalculateReturnsTheSerialCrc : Prop :=
  ∀ (s : State) (d : List Byte) (evs : List HostEvent), s.block.init.toNat < 2 ^ s.inst.W →
    calculate .bitwise d d.length = some evs → ∃ (t : State) (v : Word),
      run evs.length (s.issue evs) = .next t ∧ t.pending = [] ∧ t.replies = s.replies ++ [v] ∧
      (let c := serialCrc s.inst.W s.block.refin s.block.poly (s.block.init.setWidth s.inst.W)
        (messageBitsOf s.block.refin d)
       ∀ i, i < 64 → v.getLsbD i = (decide (i < s.inst.W) &&
        ((if s.block.refin = s.block.refout then c.getLsbD i else c.getLsbD (s.inst.W - 1 - i)) ^^
          s.block.xorout.getLsbD i)))

/-- Both shapes of every bit-length procedure return the same checksum (46_host_api.md section 5), from every state
that meets the invariant with a valid table, for every buffer and length, with bit counts that need a tail among
them. It is the spec's own inference. -/
def Obligations.ProcedureShapesAgree : Prop :=
  ∀ (s : State) (prev : Word) (buf : List Byte) (n : Nat), s.Inv → s.block.tvalid = true →
    (∀ eb et, calculateBits .bitwise buf n = some eb → calculateBits .table buf n = some et →
      ∃ tb tt v, run eb.length (s.issue eb) = .next tb ∧ run et.length (s.issue et) = .next tt ∧
        tb.replies = s.replies ++ [v] ∧ tt.replies = s.replies ++ [v]) ∧
    (∀ eb et, continueBits .bitwise prev buf n = some eb → continueBits .table prev buf n = some et →
      ∃ tb tt v, run eb.length (s.issue eb) = .next tb ∧ run et.length (s.issue et) = .next tt ∧
        tb.replies = s.replies ++ [v] ∧ tt.replies = s.replies ++ [v])

/-- Continuation (46_host_api.md section 5, the spec's own inference): when INIT and XOROUT are clean, the checksum of
`a ++ b` is the continuation of the checksum of `a` over `b`, at any split, with BITB; and with TABB where the table is
valid. -/
def Obligations.ContinuationAgrees : Prop :=
  ∀ (s : State) (x : DataEngine) (a b : List Byte) (whole first : List HostEvent),
    (x = .table → s.Inv ∧ s.block.tvalid = true) →
    s.block.init.toNat < 2 ^ s.inst.W → s.block.xorout.toNat < 2 ^ s.inst.W →
    calculate x (a ++ b) (a ++ b).length = some whole → calculate x a a.length = some first →
    ∃ (t u : State) (v prev : Word),
      run whole.length (s.issue whole) = .next t ∧ t.replies = s.replies ++ [v] ∧
      run first.length (s.issue first) = .next u ∧ u.replies = s.replies ++ [prev] ∧
      ∃ second w, continueFrom x prev b b.length = some second ∧
        run second.length (u.issue second) = .next w ∧ w.replies = s.replies ++ [prev, v]

/-- Table reuse (42_table.md section 6, restated in 46_host_api.md section 5, the spec's own inference): from every state
that meets the invariant with a valid table, any number of messages computed one after another with TABB read one
checksum each, the one the same message reads when computed alone with BITB; TVALID and the table stay. -/
def Obligations.TableReuse : Prop :=
  ∀ (s : State) (msgs : List (List Byte)), s.Inv → s.block.tvalid = true →
    ∃ (b : Block s.inst.S) (vs : List Word),
      run (calculateEach .table msgs).length (s.issue (calculateEach .table msgs)) =
        .next ⟨s.inst, b, [], s.replies ++ vs⟩ ∧
      vs.length = msgs.length ∧ b.tvalid = true ∧ b.table = s.block.table ∧
      ∀ (i : Nat) (d : List Byte) (v : Word), msgs[i]? = some d → vs[i]? = some v →
        ∃ evs t, calculate .bitwise d d.length = some evs ∧ run evs.length (s.issue evs) = .next t ∧
          t.replies = s.replies ++ [v]
end

