-- ==== Sys2Proof/Laws/Bits.lean ====
section
/-! SUPPORT. Bit-level lemmas: masks, the reflect unit, clean values. -/

namespace Sys2Proof.Machine

open Sys2Proof

@[simp] theorem getLsbD_lowMask (n k i : Nat) :
    (lowMask n k).getLsbD i = (decide (i < n) && decide (i < k)) := by
  simp [lowMask, BitVec.getLsbD_ofNat, Nat.testBit_two_pow_sub_one]

@[simp] theorem getElem_lowMask (n k i : Nat) (hi : i < n) : (lowMask n k)[i] = decide (i < k) := by
  simp [← BitVec.getLsbD_eq_getElem, hi]

theorem lowMask_self (n : Nat) : lowMask n n = BitVec.allOnes n := by
  ext i hi
  simp [← BitVec.getLsbD_eq_getElem, hi]

/-- 40_reflect.md R90, bit by bit. -/
theorem getLsbD_reflect {N : Nat} (v : BitVec N) (n : Nat) (hn : n ≤ N) (i : Nat) :
    (reflect v n).getLsbD i = (decide (i < n) && v.getLsbD (n - 1 - i)) := by
  induction n generalizing i with
  | zero => simp [reflect]
  | succ k ih =>
    rw [reflect, BitVec.getLsbD_or, BitVec.getLsbD_shiftLeft, BitVec.getLsbD_setWidth]
    rcases i with _ | j
    · simp [show 0 < N by omega]
    · rw [ih (by omega)]
      by_cases hj : j < k
      · simp [hj, show j + 1 < N by omega, show k - (j + 1) = k - 1 - j by omega]
      · simp [hj]

/-- A value below `2 ^ k`, by its bits. -/
theorem lt_two_pow_iff {n : Nat} (v : BitVec n) (k : Nat) :
    v.toNat < 2 ^ k ↔ ∀ i, k ≤ i → v.getLsbD i = false := by
  constructor
  · intro h i hi
    exact Nat.testBit_lt_two_pow (lt_of_lt_of_le h (Nat.pow_le_pow_right (by decide) hi))
  · intro h
    by_contra hc
    obtain ⟨i, hi, hb⟩ := Nat.exists_ge_and_testBit_of_ge_two_pow (Nat.le_of_not_lt hc)
    have := h i hi
    rw [BitVec.getLsbD, hb] at this
    exact absurd this (by simp)

theorem reflect_lt {N : Nat} (v : BitVec N) (n : Nat) (hn : n ≤ N) : (reflect v n).toNat < 2 ^ n := by
  rw [lt_two_pow_iff]
  intro i hi
  rw [getLsbD_reflect v n hn, decide_eq_false (by omega), Bool.false_and]

theorem and_lowMask_lt {n : Nat} (v : BitVec n) (k : Nat) : (v &&& lowMask n k).toNat < 2 ^ k := by
  rw [lt_two_pow_iff]
  intro i hi
  simp [show ¬ i < k by omega]

theorem and_lowMask_of_lt {n : Nat} (v : BitVec n) (k : Nat) (h : v.toNat < 2 ^ k) : v &&& lowMask n k = v := by
  rw [lt_two_pow_iff] at h
  apply BitVec.eq_of_getLsbD_eq
  intro i hi
  by_cases hk : i < k
  · simp [hi, hk]
  · simp [h i (by omega)]

/-- Equality on bits `W-1:0`, said with the mask of the rules or as `W`-bit values. -/
theorem and_lowMask_eq_iff {n : Nat} (a b : BitVec n) (W : Nat) (hW : W ≤ n) :
    a &&& lowMask n W = b &&& lowMask n W ↔ a.setWidth W = b.setWidth W := by
  constructor
  · intro h
    apply BitVec.eq_of_getLsbD_eq
    intro i hi
    have := congrArg (fun v => v.getLsbD i) h
    simpa [hi, show i < n by omega] using this
  · intro h
    apply BitVec.eq_of_getLsbD_eq
    intro i hi
    by_cases hk : i < W
    · have := congrArg (fun v => v.getLsbD i) h
      simpa [hi, hk] using this
    · simp [hk]

end Sys2Proof.Machine
end

