-- ==== Sys2Proof/Laws/Decode.lean ====
section
/-! SUPPORT. The fields of an encoded command, with any bits in the fields its opcode does not use. -/

namespace Sys2Proof

/-- A word with no bit of the mask `m` has bit `i` 0 wherever `m` has it 1. -/
theorem getLsbD_of_and_eq_zero {u m : Word} (h : u &&& m = 0) (i : Nat) (hm : m.getLsbD i = true) :
    u.getLsbD i = false := by
  have := congrArg (fun v => v.getLsbD i) h
  simpa [BitVec.getLsbD_and, hm] using this

theorem opField_eq_of_bits (w : Word) (o : BitVec 4) (h : ∀ i, i < 4 → w.getLsbD i = o.getLsbD i) : opField w = o := by
  apply BitVec.eq_of_getLsbD_eq
  intro i hi
  simp [opField, hi, h i hi]

/-- The bits of a field shifted to its place. -/
theorem getLsbD_field {n : Nat} (f : BitVec n) (k i : Nat) :
    ((f.setWidth 64 : Word) <<< k).getLsbD i = (decide (i < 64) && decide (k ≤ i) && f.getLsbD (i - k)) := by
  rw [BitVec.getLsbD_shiftLeft, BitVec.getLsbD_setWidth]
  by_cases h1 : i < 64
  · by_cases h2 : k ≤ i
    · simp [h1, h2, show ¬ i < k by omega, show i - k < 64 by omega]
    · simp [h2, show i < k by omega]
  · simp [h1]

theorem getLsbD_opcode (o : BitVec 4) (i : Nat) : ((o.setWidth 64 : Word)).getLsbD i = o.getLsbD i := by
  rw [BitVec.getLsbD_setWidth]
  by_cases h : i < 64
  · simp [h]
  · simp [h, BitVec.getLsbD_of_ge o i (by omega)]

/-- The bits above the opcode start at bit 4. -/
theorem fieldBits_low (i : Instr) (j : Nat) (hj : j < 4) : i.fieldBits.getLsbD j = false := by
  cases i <;> simp [Instr.fieldBits] <;> omega

/-- The bits above the opcode stay within the fields the opcode uses. -/
theorem fieldBits_used (i : Instr) (j : Nat) (h : i.fieldBits.getLsbD j = true) : i.usedBits.getLsbD j = true := by
  have hj : j < 64 := by
    by_contra hc
    rw [BitVec.getLsbD_of_ge _ _ (by omega)] at h
    cases h
  have key : ∀ (n k : Nat) (f : BitVec n) (m : Word), (∀ j, k ≤ j → j < k + n → m.getLsbD j = true) →
      ((f.setWidth 64 : Word) <<< k).getLsbD j = true → m.getLsbD j = true := by
    intro n k f m hm hf
    rw [getLsbD_field] at hf
    simp only [Bool.and_eq_true, decide_eq_true_eq] at hf
    refine hm j hf.1.2 ?_
    by_contra hc
    rw [BitVec.getLsbD_of_ge f _ (by omega)] at hf
    exact absurd hf.2 (by simp)
  cases i with
  | nop => simp [Instr.fieldBits] at h
  | seed => simp [Instr.fieldBits] at h
  | build => simp [Instr.fieldBits] at h
  | bitb d => exact key 8 8 d _ (by intro j h1 h2; simp only [Instr.usedBits]; interval_cases j <;> decide) h
  | tabb d => exact key 8 8 d _ (by intro j h1 h2; simp only [Instr.usedBits]; interval_cases j <;> decide) h
  | trd d => exact key 8 8 d _ (by intro j h1 h2; simp only [Instr.usedBits]; interval_cases j <;> decide) h
  | fin m => exact key 2 4 _ _ (by intro j h1 h2; simp only [Instr.usedBits]; interval_cases j <;> decide) h
  | unfin m => exact key 2 4 _ _ (by intro j h1 h2; simp only [Instr.usedBits]; interval_cases j <;> decide) h
  | refl k => exact key 7 24 _ _ (by intro j h1 h2; simp only [Instr.usedBits]; interval_cases j <;> decide) h
  | subb d n =>
    rw [Instr.fieldBits, BitVec.getLsbD_or, Bool.or_eq_true] at h
    rcases h with h | h
    · exact key 8 8 d _ (by intro j h1 h2; simp only [Instr.usedBits]; interval_cases j <;> decide) h
    · exact key 3 16 n _ (by intro j h1 h2; simp only [Instr.usedBits]; interval_cases j <;> decide) h

theorem usedBits_op (i : Instr) (j : Nat) (hj : j < 4) : i.usedBits.getLsbD j = true := by
  cases i <;> simp only [Instr.usedBits] <;> interval_cases j <;> decide

/-- No opcode uses a reserved bit. -/
theorem usedBits_and_rsvMask (i : Instr) : i.usedBits &&& rsvMask = 0 := by
  cases i <;> simp only [Instr.usedBits] <;> decide

/-- Unused bits do not reach the opcode field. -/
theorem opField_encode_or (i : Instr) (u : Word) (hu : u &&& (rsvMask ||| i.usedBits) = 0) :
    opField (encode i ||| u) = i.opcode := by
  apply opField_eq_of_bits
  intro j hj
  have hm : (rsvMask ||| i.usedBits).getLsbD j = true := by
    rw [BitVec.getLsbD_or, usedBits_op i j hj, Bool.or_true]
  rw [encode, BitVec.getLsbD_or, BitVec.getLsbD_or, getLsbD_opcode, fieldBits_low i j hj,
    getLsbD_of_and_eq_zero hu j hm]
  simp

/-- Unused bits are not reserved bits. -/
theorem encode_or_and_rsvMask (i : Instr) (u : Word) (hu : u &&& (rsvMask ||| i.usedBits) = 0) :
    (encode i ||| u) &&& rsvMask = 0 := by
  apply BitVec.eq_of_getLsbD_eq
  intro j hj
  rw [BitVec.getLsbD_and, BitVec.getLsbD_or, encode, BitVec.getLsbD_or]
  by_cases hr : rsvMask.getLsbD j = true
  · have hm : (rsvMask ||| i.usedBits).getLsbD j = true := by rw [BitVec.getLsbD_or, hr, Bool.true_or]
    have hu' := getLsbD_of_and_eq_zero hu j hm
    have hn : i.usedBits.getLsbD j = false := by
      have := congrArg (fun v => v.getLsbD j) (usedBits_and_rsvMask i)
      simpa [BitVec.getLsbD_and, hr] using this
    have hf : i.fieldBits.getLsbD j = false := by
      by_contra hc
      rw [fieldBits_used i j (by simpa using hc)] at hn
      cases hn
    have ho : i.opcode.getLsbD j = false := by
      apply BitVec.getLsbD_of_ge
      by_contra hc
      rw [usedBits_op i j (by omega)] at hn
      cases hn
    rw [getLsbD_opcode, ho, hf, hu']
    simp
  · simp [hr]

/-- A field read back from a word whose bits at its place are the field's. -/
theorem extract_eq_of_bits {n : Nat} (w : Word) (k : Nat) (f : BitVec n)
    (h : ∀ i, i < n → w.getLsbD (k + i) = f.getLsbD i) : w.extractLsb' k n = f := by
  apply BitVec.eq_of_getLsbD_eq
  intro i hi
  simp [hi, h i hi]

/-- Every opcode is a row of the opcode map. -/
theorem opcode_lt (i : Instr) : i.opcode.toNat < 0xA := by
  cases i <;> simp [Instr.opcode]

/-- A field the opcode uses, read back from its word with any unused bits: the bits the encoder put there. -/
theorem field_encode_or (i : Instr) (u : Word) (hu : u &&& (rsvMask ||| i.usedBits) = 0) {n : Nat} (k : Nat)
    (f : BitVec n) (hk : 4 ≤ k) (hus : ∀ j, j < n → i.usedBits.getLsbD (k + j) = true)
    (he : ∀ j, j < n → i.fieldBits.getLsbD (k + j) = f.getLsbD j) : (encode i ||| u).extractLsb' k n = f := by
  apply extract_eq_of_bits
  intro j hj
  have : u.getLsbD (k + j) = false :=
    getLsbD_of_and_eq_zero hu _ (by rw [BitVec.getLsbD_or, hus j hj, Bool.or_true])
  rw [BitVec.getLsbD_or, encode, BitVec.getLsbD_or, he j hj, getLsbD_opcode,
    BitVec.getLsbD_of_ge i.opcode _ (by omega), this]
  simp

/-- The mode of a field, back from the field of a mode. -/
@[simp] theorem ReflMode.ofField_toField (m : ReflMode) : ReflMode.ofField m.toField = m := by
  cases m <;> rfl

/-- The checks the decoder makes before it looks at the fields, passed. -/
theorem decode_of_legal (w : Word) (h1 : (opField w).toNat < 0xA) (h2 : w &&& rsvMask = 0) :
    decode w = decodeFields w := by
  unfold decode
  rw [if_neg (Nat.not_le.2 h1), if_neg (by simp [h2])]

/-- The fields as numbers (30_encoding.md R72). -/
theorem opField_toNat (w : Word) : (opField w).toNat = w.toNat % 16 := by
  simp [opField, BitVec.extractLsb'_toNat]

theorem rmField_toNat (w : Word) : (rmField w).toNat = w.toNat / 2 ^ 4 % 4 := by
  simp [rmField, BitVec.extractLsb'_toNat, Nat.shiftRight_eq_div_pow]

theorem dataField_toNat (w : Word) : (dataField w).toNat = w.toNat / 2 ^ 8 % 256 := by
  simp [dataField, BitVec.extractLsb'_toNat, Nat.shiftRight_eq_div_pow]

theorem nbField_toNat (w : Word) : (nbField w).toNat = w.toNat / 2 ^ 16 % 8 := by
  simp [nbField, BitVec.extractLsb'_toNat, Nat.shiftRight_eq_div_pow]

theorem rbField_toNat (w : Word) : (rbField w).toNat = w.toNat / 2 ^ 24 % 128 := by
  simp [rbField, BitVec.extractLsb'_toNat, Nat.shiftRight_eq_div_pow]

end Sys2Proof
end

