-- ==== Sys2Proof/Laws/Engine.lean ====
section
/-! SUPPORT. The shift-and-XOR steps: they are linear over XOR, they only shift while the tested bits are 0, and they
commute with dropping upper bits. -/

namespace Sys2Proof.Machine

open Sys2Proof

variable {S : Nat}

/-- The branchless form of StepR (41_bit_engine.md R101), with the product written as a choice. -/
theorem stepR_eq (q r : BitVec S) : stepR q r = (r >>> 1) ^^^ (if r.getLsbD 0 then q else 0) := by
  unfold stepR; split <;> simp

/-- The branchless form of StepL (41_bit_engine.md R102), with the product written as a choice. -/
theorem stepL_eq (p : BitVec S) (t : Nat) (r : BitVec S) :
    stepL p t r = (r <<< 1) ^^^ (if r.getLsbD t then p else 0) := by
  unfold stepL; split <;> simp

theorem ofNat_toNat_mul (x : Bool) (q : BitVec S) : BitVec.ofNat S x.toNat * q = if x then q else 0 := by
  cases x <;> simp

/-- The two forms of the right step are one function (41_bit_engine.md R101). -/
theorem stepRBranchless_eq (q r : BitVec S) : stepRBranchless q r = stepR q r := by
  rw [stepR_eq, stepRBranchless, ofNat_toNat_mul]

/-- The two forms of the left step are one function (41_bit_engine.md R102). -/
theorem stepLBranchless_eq (p : BitVec S) (t : Nat) (r : BitVec S) : stepLBranchless p t r = stepL p t r := by
  rw [stepL_eq, stepLBranchless, ofNat_toNat_mul]

theorem getLsbD_stepR (q r : BitVec S) (i : Nat) :
    (stepR q r).getLsbD i = (r.getLsbD (i + 1) ^^ (r.getLsbD 0 && q.getLsbD i)) := by
  rw [stepR_eq]; split <;> simp_all [Nat.add_comm]

theorem getLsbD_stepL (p : BitVec S) (t : Nat) (r : BitVec S) (i : Nat) :
    (stepL p t r).getLsbD i =
      ((decide (i < S) && decide (0 < i) && r.getLsbD (i - 1)) ^^ (r.getLsbD t && p.getLsbD i)) := by
  have hd : (!decide (i < 1)) = decide (0 < i) := by
    by_cases h : i = 0
    · simp [h]
    · simp [h, show 0 < i by omega]
  rw [stepL_eq, BitVec.getLsbD_xor, BitVec.getLsbD_shiftLeft, hd]
  split <;> simp_all

theorem stepR_xor (q a b : BitVec S) : stepR q (a ^^^ b) = stepR q a ^^^ stepR q b := by
  apply BitVec.eq_of_getLsbD_eq
  intro i _
  simp only [BitVec.getLsbD_xor, getLsbD_stepR]
  cases a.getLsbD 0 <;> cases b.getLsbD 0 <;> cases a.getLsbD (i + 1) <;> cases b.getLsbD (i + 1) <;>
    cases q.getLsbD i <;> rfl

theorem stepL_xor (p : BitVec S) (t : Nat) (a b : BitVec S) :
    stepL p t (a ^^^ b) = stepL p t a ^^^ stepL p t b := by
  apply BitVec.eq_of_getLsbD_eq
  intro i hi
  simp only [BitVec.getLsbD_xor, getLsbD_stepL, decide_eq_true hi, Bool.true_and]
  cases a.getLsbD t <;> cases b.getLsbD t <;> cases a.getLsbD (i - 1) <;> cases b.getLsbD (i - 1) <;>
    cases p.getLsbD i <;> cases decide (0 < i) <;> rfl

theorem iterate_xor (f : BitVec S → BitVec S) (hf : ∀ a b, f (a ^^^ b) = f a ^^^ f b) (k : Nat) (a b : BitVec S) :
    f^[k] (a ^^^ b) = f^[k] a ^^^ f^[k] b := by
  induction k generalizing a b with
  | zero => rfl
  | succ k ih => simp only [Function.iterate_succ_apply, hf, ih]

/-- While the bits tested are 0, right steps only shift. -/
theorem stepR_iterate_of_low_zero (q r : BitVec S) (k : Nat) (h : ∀ j, j < k → r.getLsbD j = false) :
    (stepR q)^[k] r = r >>> k := by
  induction k generalizing r with
  | zero => simp
  | succ k ih =>
    rw [Function.iterate_succ_apply, stepR, h 0 (by omega), if_neg (by simp), ih]
    · rw [BitVec.shiftRight_add]
      exact BitVec.eq_of_getLsbD_eq fun i _ => by simp [Nat.add_comm, Nat.add_assoc]
    · intro j hj
      simpa [Nat.add_comm] using h (j + 1) (by omega)

/-- While the bits tested are 0, left steps only shift. -/
theorem stepL_iterate_of_high_zero (p : BitVec S) (t : Nat) (r : BitVec S) (k : Nat) (hk : k ≤ t + 1)
    (h : ∀ j, j < k → r.getLsbD (t - j) = false) : (stepL p t)^[k] r = r <<< k := by
  induction k generalizing r with
  | zero => simp
  | succ k ih =>
    rw [Function.iterate_succ_apply, stepL, show r.getLsbD t = false from h 0 (by omega), if_neg (by simp), ih _ (by omega)]
    · rw [← BitVec.shiftLeft_add, Nat.add_comm]
    · intro j hj
      have := h (j + 1) (by omega)
      rw [BitVec.getLsbD_shiftLeft, show t - j - 1 = t - (j + 1) by omega, this, Bool.and_false]

/-- Left steps do not bring upper bits down: the low `m` bits of a step depend on the low `m` bits alone, when the
tested bit is among them (41_bit_engine.md R110). -/
theorem stepL_setWidth (p : BitVec S) (t : Nat) (r : BitVec S) (m : Nat) (hm : m ≤ S) (ht : t < m) :
    (stepL p t r).setWidth m = stepL (p.setWidth m) t (r.setWidth m) := by
  apply BitVec.eq_of_getLsbD_eq
  intro i hi
  rw [BitVec.getLsbD_setWidth, getLsbD_stepL, getLsbD_stepL]
  simp only [BitVec.getLsbD_setWidth, decide_eq_true hi, decide_eq_true ht, decide_eq_true (show i < S by omega),
    decide_eq_true (show i - 1 < m by omega), Bool.true_and]

theorem stepL_iterate_setWidth (p : BitVec S) (t : Nat) (r : BitVec S) (m : Nat) (hm : m ≤ S) (ht : t < m) (k : Nat) :
    ((stepL p t)^[k] r).setWidth m = (stepL (p.setWidth m) t)^[k] (r.setWidth m) := by
  induction k generalizing r with
  | zero => rfl
  | succ k ih => rw [Function.iterate_succ_apply, ih, stepL_setWidth p t r m hm ht, ← Function.iterate_succ_apply]

/-- A right step of a clean remainder is clean. -/
theorem stepR_lt (q r : BitVec S) (W : Nat) (hq : q.toNat < 2 ^ W) (hr : r.toNat < 2 ^ W) :
    (stepR q r).toNat < 2 ^ W := by
  rw [lt_two_pow_iff] at *
  intro i hi
  rw [getLsbD_stepR, hq i hi, hr (i + 1) (by omega)]
  simp

theorem stepR_iterate_lt (q r : BitVec S) (W k : Nat) (hq : q.toNat < 2 ^ W) (hr : r.toNat < 2 ^ W) :
    ((stepR q)^[k] r).toNat < 2 ^ W := by
  induction k generalizing r with
  | zero => exact hr
  | succ k ih => exact ih _ (stepR_lt q r W hq hr)

/-- The engine's loop is linear over XOR in the remainder and the byte together. -/
theorem foldBits_xor (W : Nat) (refin : Bool) (poly a b : BitVec S) (x y : Byte) (k : Nat) :
    foldBits W refin poly (a ^^^ b) (x ^^^ y) k = foldBits W refin poly a x k ^^^ foldBits W refin poly b y k := by
  have swap (c d e f : BitVec S) : c ^^^ d ^^^ (e ^^^ f) = c ^^^ e ^^^ (d ^^^ f) := by
    rw [BitVec.xor_assoc, ← BitVec.xor_assoc d e f, BitVec.xor_comm d e, BitVec.xor_assoc e d f, ← BitVec.xor_assoc]
  unfold foldBits
  cases regime W refin <;> simp only []
  · rw [BitVec.setWidth_xor, swap, iterate_xor _ (stepR_xor _)]
  · rw [BitVec.setWidth_xor, BitVec.shiftLeft_xor_distrib, swap, iterate_xor _ (stepL_xor _ _)]
  · rw [BitVec.setWidth_xor, BitVec.shiftLeft_xor_distrib, swap, iterate_xor _ (stepL_xor _ _),
      BitVec.ushiftRight_xor_distrib]

end Sys2Proof.Machine
end

