-- ==== Sys2Proof/Laws/TableEngine.lean ====
section
/-! SUPPORT. The table: what BUILD writes, and the table-driven step against the bit-by-bit one. -/

namespace Sys2Proof.Machine

open Sys2Proof

variable {S : Nat}

@[simp] theorem readTable_buildTable (W : Nat) (refin : Bool) (poly : BitVec S) (i : Byte) :
    readTable (buildTable W refin poly) i = entry W refin poly i := by
  simp [readTable, buildTable]

@[simp] theorem foldBits_zero (W : Nat) (refin : Bool) (poly : BitVec S) (k : Nat) :
    foldBits W refin poly 0#S 0#8 k = 0#S := by
  have h := foldBits_xor W refin poly 0#S 0#S 0#8 0#8 k
  simpa using h

/-- A byte through the engine is the remainder's part XOR the byte's part. -/
theorem foldBits_split (W : Nat) (refin : Bool) (poly r : BitVec S) (b : Byte) (k : Nat) :
    foldBits W refin poly r b k = foldBits W refin poly r 0#8 k ^^^ foldBits W refin poly 0#S b k := by
  simpa using foldBits_xor W refin poly r 0#S 0#8 b k

theorem and_xor_right (a b m : BitVec S) : (a ^^^ b) &&& m = a &&& m ^^^ (b &&& m) := by
  apply BitVec.eq_of_getLsbD_eq
  intro i _
  simp only [BitVec.getLsbD_xor, BitVec.getLsbD_and]
  cases a.getLsbD i <;> cases b.getLsbD i <;> cases m.getLsbD i <;> rfl

/-- In REFLECTED the engine keeps a clean remainder clean (41_bit_engine.md R110), whatever the byte: its bits at or
above `W` leave through bit 0. -/
theorem foldBits_reflected_lt (W : Nat) (refin : Bool) (poly r : BitVec S) (b : Byte) (k : Nat) (hW : W ≤ S)
    (hreg : regime W refin = .reflected) (hb : b.toNat < 2 ^ k) (hr : r.toNat < 2 ^ W) :
    (foldBits W refin poly r b k).toNat < 2 ^ W := by
  unfold foldBits
  rw [hreg]
  simp only []
  have hq := reflect_lt poly W hW
  have key : ∀ k (c d : BitVec S), c.toNat < 2 ^ W → d.toNat < 2 ^ k →
      ((stepR (reflect poly W))^[k] (c ^^^ d)).toNat < 2 ^ W := by
    intro k c d hc hd
    rw [iterate_xor _ (stepR_xor _)]
    have h1 := stepR_iterate_lt (reflect poly W) c W k hq hc
    have h2 : ∀ k (d : BitVec S), d.toNat < 2 ^ k → ((stepR (reflect poly W))^[k] d).toNat < 2 ^ W := by
      intro k
      induction k with
      | zero =>
        intro d hd
        have : d.toNat = 0 := by simpa using hd
        simp [this]
      | succ k ih =>
        intro d hd
        rw [Function.iterate_succ_apply, stepR_eq, iterate_xor _ (stepR_xor _), lt_two_pow_iff]
        intro i hi
        rw [BitVec.getLsbD_xor]
        have ha := ih (d >>> 1) (by
          rw [BitVec.toNat_ushiftRight, Nat.shiftRight_eq_div_pow]
          exact Nat.div_lt_of_lt_mul (by rw [← Nat.pow_succ']; exact hd))
        have hb := stepR_iterate_lt (reflect poly W) (if d.getLsbD 0 then reflect poly W else 0) W k hq (by
          split
          · exact hq
          · simp)
        rw [(lt_two_pow_iff _ _).1 ha i hi, (lt_two_pow_iff _ _).1 hb i hi]
        rfl
    have h2 := h2 k d hd
    rw [lt_two_pow_iff] at *
    intro i hi
    rw [BitVec.getLsbD_xor, h1 i hi, h2 i hi]
    rfl
  apply key k r (b.setWidth S) hr
  rw [BitVec.toNat_setWidth]
  exact lt_of_le_of_lt (Nat.mod_le _ _) hb

/-- Bits `W-1:0` after left-regime commands do not depend on the bits of the remainder at or above `W`
(41_bit_engine.md R110). -/
theorem foldBits_low (W : Nat) (refin : Bool) (poly r r' : BitVec S) (b : Byte) (k : Nat) (hW1 : 1 ≤ W) (hW : W ≤ S)
    (hS : 8 ≤ S) (hreg : regime W refin ≠ .reflected) (hr : r.setWidth W = r'.setWidth W) :
    (foldBits W refin poly r b k).setWidth W = (foldBits W refin poly r' b k).setWidth W := by
  have hbits : ∀ i, i < W → r.getLsbD i = r'.getLsbD i := by
    intro i hi
    have := congrArg (fun v => v.getLsbD i) hr
    simpa [BitVec.getLsbD_setWidth, hi] using this
  unfold foldBits
  cases hc : regime W refin
  · exact absurd hc hreg
  · simp only []
    rw [stepL_iterate_setWidth _ _ _ _ hW (by omega), stepL_iterate_setWidth _ _ _ _ hW (by omega),
      BitVec.setWidth_xor, BitVec.setWidth_xor, hr]
  · simp only []
    have hW8 : W < 8 := by
      unfold regime at hc
      split at hc
      · cases hc
      · split at hc
        · cases hc
        · omega
    have h8 : ((stepL (poly <<< sh W) 7)^[k] (r <<< sh W ^^^ b.setWidth S)).setWidth 8
        = ((stepL (poly <<< sh W) 7)^[k] (r' <<< sh W ^^^ b.setWidth S)).setWidth 8 := by
      rw [stepL_iterate_setWidth _ _ _ _ hS (by omega), stepL_iterate_setWidth _ _ _ _ hS (by omega)]
      congr 1
      apply BitVec.eq_of_getLsbD_eq
      intro i hi
      simp only [BitVec.getLsbD_setWidth, BitVec.getLsbD_xor, BitVec.getLsbD_shiftLeft]
      by_cases hs : i < sh W
      · simp [hs]
      · rw [hbits (i - sh W) (by unfold sh at *; omega)]
    apply BitVec.eq_of_getLsbD_eq
    intro i hi
    have := congrArg (fun v => v.getLsbD (sh W + i)) h8
    simp only [BitVec.getLsbD_setWidth, decide_eq_true (show sh W + i < 8 by unfold sh; omega), Bool.true_and] at this
    simp only [BitVec.getLsbD_setWidth, BitVec.getLsbD_ushiftRight, this]

/-- The regimes, by what selects them (41_bit_engine.md R100). -/
theorem regime_cases (W : Nat) (refin : Bool) :
    (refin = true ∧ regime W refin = .reflected) ∨ (refin = false ∧ 8 ≤ W ∧ regime W refin = .wide) ∨
      (refin = false ∧ W < 8 ∧ regime W refin = .narrow) := by
  unfold regime
  cases refin
  · by_cases h : 8 ≤ W
    · simp [h]
    · simp [h, Nat.lt_of_not_le h]
  · simp

/-- In NARROW the shifted-up remainder keeps its bits below `sh` at 0 after 8 steps or, for fewer steps, once the
message bits have left them (41_bit_engine.md R107). -/
theorem narrow_low_zero (W : Nat) (poly r : BitVec S) (b : Byte) (k : Nat) (hb : ∀ j, j + k < 8 → b.getLsbD j = false)
    (i : Nat) (hi : i < sh W) :
    ((stepL (poly <<< sh W) 7)^[k] (r <<< sh W ^^^ b.setWidth S)).getLsbD i = false := by
  have key : ∀ k (x : BitVec S), (∀ j, j + k < sh W → x.getLsbD j = false) → ∀ i, i < sh W →
      ((stepL (poly <<< sh W) 7)^[k] x).getLsbD i = false := by
    intro k
    induction k with
    | zero => exact fun x hx i hi => hx i (by omega)
    | succ k ih =>
      intro x hx i hi
      rw [Function.iterate_succ_apply]
      apply ih _ _ i hi
      intro j hj
      have hp : (poly <<< sh W).getLsbD j = false := by simp [show j < sh W by omega]
      rw [getLsbD_stepL, hp, Bool.and_false, Bool.xor_false]
      rcases j with _ | j
      · simp
      · simp [hx j (by omega)]
  refine key k _ (fun j hj => ?_) i hi
  have h1 : (r <<< sh W).getLsbD j = false := by simp [show j < sh W by omega]
  rw [BitVec.getLsbD_xor, h1, BitVec.getLsbD_setWidth, hb j (by unfold sh at hj; omega)]
  simp

end Sys2Proof.Machine
end

