-- ==== Sys2Proof/Laws/Equivalence.lean ====
section
/-! SUPPORT. The table-driven step against the bit-by-bit step, regime by regime (42_table.md R127). -/

namespace Sys2Proof.Machine

open Sys2Proof

variable {S : Nat}

/-- The part of a value above the byte at `off`, and that byte, make up the value again. -/
theorem xor_byte_cancel (u lo : BitVec S) : (u ^^^ lo) ^^^ lo = u := by
  rw [BitVec.xor_assoc, BitVec.xor_self, BitVec.xor_zero]

/-- REFLECTED: 8 right steps are a shift by 8 XOR the contribution of the low byte. -/
theorem bitByte_reflected_split (W : Nat) (refin : Bool) (poly r : BitVec S) (b : Byte)
    (h : regime W refin = .reflected) :
    bitByte W refin poly r b = r >>> 8 ^^^ bitByte W refin poly 0#S (tableIndex W refin r b) := by
  unfold bitByte foldBits tableIndex
  rw [h]
  simp only [BitVec.zero_xor]
  generalize hu : r ^^^ b.setWidth S = u
  conv_lhs => rw [← xor_byte_cancel u ((u.setWidth 8).setWidth S), iterate_xor _ (stepR_xor _)]
  congr 1
  rw [stepR_iterate_of_low_zero]
  · apply BitVec.eq_of_getLsbD_eq
    intro i hi
    simp [← hu, BitVec.getLsbD_setWidth, BitVec.getLsbD_ushiftRight, BitVec.getLsbD_xor]
  · intro j hj
    by_cases hjS : j < S
    · simp [hj, hjS]
    · rw [BitVec.getLsbD_of_ge _ j (by omega)]

/-- WIDE: 8 left steps are a shift by 8 of what does not reach the tested bit, XOR the contribution of the top byte. -/
theorem bitByte_wide_split (W : Nat) (refin : Bool) (poly r : BitVec S) (b : Byte) (hW : W ≤ S) (h8 : 8 ≤ W)
    (h : regime W refin = .wide) :
    ∃ hi : BitVec S, (∀ i, i < W - 8 → hi.getLsbD i = r.getLsbD i) ∧
      bitByte W refin poly r b = hi <<< 8 ^^^ bitByte W refin poly 0#S (tableIndex W refin r b) := by
  unfold bitByte foldBits tableIndex
  rw [h]
  simp only [BitVec.zero_xor]
  generalize hidx : (r >>> (W - 8) ^^^ b.setWidth S).setWidth 8 = idx
  generalize hu : r ^^^ b.setWidth S <<< (W - 8) = u
  refine ⟨u ^^^ idx.setWidth S <<< (W - 8), ?_, ?_⟩
  · intro i hi
    simp [← hu, hi]
  · conv_lhs => rw [← xor_byte_cancel u (idx.setWidth S <<< (W - 8)), iterate_xor _ (stepL_xor _ _)]
    congr 1
    rw [stepL_iterate_of_high_zero _ _ _ _ (by omega)]
    intro j hj
    have e1 : W - 1 - j - (W - 8) = 7 - j := by omega
    have e2 : W - 8 + (7 - j) = W - 1 - j := by omega
    rw [← hu, ← hidx]
    simp only [BitVec.getLsbD_xor, BitVec.getLsbD_shiftLeft, BitVec.getLsbD_setWidth, BitVec.getLsbD_ushiftRight, e1, e2,
      decide_eq_true (show W - 1 - j < S by omega), decide_eq_false (show ¬ W - 1 - j < W - 8 by omega),
      decide_eq_true (show 7 - j < S by omega), decide_eq_true (show 7 - j < 8 by omega), Bool.true_and, Bool.not_false]
    cases r.getLsbD (W - 1 - j) <;> cases b.getLsbD (7 - j) <;> rfl

/-- NARROW: 8 left steps of the shifted-up remainder are a shift by 8, above the byte, XOR the contribution of the
low byte. -/
theorem bitByte_narrow_split (W : Nat) (refin : Bool) (poly r : BitVec S) (b : Byte) (hS : 8 ≤ S)
    (h : regime W refin = .narrow) :
    ∃ hi : BitVec S,
      bitByte W refin poly r b = (hi <<< 8) >>> sh W ^^^ bitByte W refin poly 0#S (tableIndex W refin r b) := by
  unfold bitByte foldBits tableIndex
  rw [h]
  simp only [BitVec.zero_xor, BitVec.zero_shiftLeft]
  generalize hu : r <<< sh W ^^^ b.setWidth S = u
  refine ⟨u ^^^ (u.setWidth 8).setWidth S, ?_⟩
  conv_lhs => rw [← xor_byte_cancel u ((u.setWidth 8).setWidth S), iterate_xor _ (stepL_xor _ _),
    BitVec.ushiftRight_xor_distrib]
  congr 2
  rw [stepL_iterate_of_high_zero _ _ _ _ (by omega)]
  intro j hj
  rw [BitVec.getLsbD_xor, BitVec.getLsbD_setWidth, BitVec.getLsbD_setWidth]
  simp [show 7 - j < S by omega, show 7 - j < 8 by omega]

/-- The two engines agree on bits `W-1:0` (42_table.md R127). -/
theorem tabByte_low (W : Nat) (refin : Bool) (poly r : BitVec S) (b : Byte) (hW1 : 1 ≤ W) (hW : W ≤ S) (hS : 8 ≤ S) :
    (tabByte W refin (buildTable W refin poly) r b).setWidth W = (bitByte W refin poly r b).setWidth W := by
  apply BitVec.eq_of_getLsbD_eq
  intro i hi
  rcases regime_cases W refin with ⟨-, h⟩ | ⟨-, h8, h⟩ | ⟨-, h8, h⟩
  · rw [bitByte_reflected_split W refin poly r b h]
    unfold tabByte
    rw [h]
    simp [entry, h, hi, show i < S by omega]
  · obtain ⟨hi', hlow, he⟩ := bitByte_wide_split W refin poly r b hW h8 h
    rw [he]
    unfold tabByte
    rw [h]
    simp only [readTable_buildTable, entry, h, BitVec.getLsbD_setWidth, BitVec.getLsbD_xor, BitVec.getLsbD_and,
      BitVec.getLsbD_shiftLeft, getLsbD_lowMask, decide_eq_true hi, decide_eq_true (show i < S by omega), Bool.true_and,
      Bool.and_true]
    by_cases hb : i < 8
    · simp [hb]
    · rw [hlow (i - 8) (by omega)]
  · obtain ⟨hi', he⟩ := bitByte_narrow_split W refin poly r b hS h
    rw [he]
    unfold tabByte
    rw [h]
    simp only [readTable_buildTable, entry, h, BitVec.getLsbD_setWidth, BitVec.getLsbD_xor, BitVec.getLsbD_and,
      BitVec.getLsbD_ushiftRight, BitVec.getLsbD_shiftLeft, getLsbD_lowMask]
    simp [hi, show sh W + i < 8 by unfold sh; omega, show sh W + i < S by unfold sh; omega, show i < S by omega]

/-- The two engines agree on all `S` bits in REFLECTED, in WIDE with `S = W` and in NARROW with `S = 8`
(42_table.md R127). -/
theorem tabByte_eq (W : Nat) (refin : Bool) (poly r : BitVec S) (b : Byte) (hW : W ≤ S) (hS : 8 ≤ S)
    (hc : refin = true ∨ (8 ≤ W ∧ S = W) ∨ (W < 8 ∧ S = 8)) :
    tabByte W refin (buildTable W refin poly) r b = bitByte W refin poly r b := by
  rcases regime_cases W refin with ⟨-, h⟩ | ⟨hf, h8, h⟩ | ⟨hf, h8, h⟩
  · rw [bitByte_reflected_split W refin poly r b h]
    unfold tabByte
    rw [h]
    simp only [readTable_buildTable, entry, h]
    rw [and_lowMask_of_lt]
    exact foldBits_reflected_lt W refin poly 0#S _ 8 hW h (BitVec.isLt _) (by simp)
  · have hSW : S = W := by
      rcases hc with hc | hc | hc
      · simp [hf] at hc
      · exact hc.2
      · omega
    subst hSW
    obtain ⟨hi', hlow, he⟩ := bitByte_wide_split S refin poly r b hW h8 h
    rw [he]
    unfold tabByte
    rw [h]
    simp only [readTable_buildTable, entry, h, lowMask_self, BitVec.and_allOnes]
    congr 1
    apply BitVec.eq_of_getLsbD_eq
    intro i hi
    by_cases hb : i < 8
    · simp [hb]
    · simp only [BitVec.getLsbD_shiftLeft, hlow (i - 8) (by omega)]
  · have hS8 : S = 8 := by
      rcases hc with hc | hc | hc
      · simp [hf] at hc
      · omega
      · exact hc.2
    subst hS8
    obtain ⟨hi', he⟩ := bitByte_narrow_split W refin poly r b hS h
    rw [he]
    unfold tabByte
    rw [h]
    have hz : hi' <<< 8 = 0#8 := BitVec.shiftLeft_eq_zero (by omega)
    simp only [readTable_buildTable, entry, h, hz, BitVec.zero_ushiftRight, BitVec.zero_xor]
    apply BitVec.eq_of_getLsbD_eq
    intro i hi
    simp only [BitVec.getLsbD_ushiftRight, BitVec.getLsbD_shiftLeft, BitVec.getLsbD_and, getLsbD_lowMask]
    by_cases hiW : i < W
    · simp [hiW, show sh W + i < 8 by unfold sh; omega, hi]
    · have h0 : (bitByte W refin poly 0#8 (tableIndex W refin r b)).getLsbD i = false := by
        unfold bitByte foldBits
        rw [h]
        simp only [BitVec.getLsbD_ushiftRight]
        exact BitVec.getLsbD_of_ge _ _ (by unfold sh; omega)
      simp [hiW, h0]

end Sys2Proof.Machine
end

