-- ==== Sys2Proof/Laws/Finalize.lean ====
section
/-! SUPPORT. The finalize unit, bit by bit. -/

namespace Sys2Proof.Machine

open Sys2Proof

variable {S : Nat}

/-- 44_finalize.md R150, bit by bit: bits at or above `W` are 0, and the others come from the `W` low bits of the
remainder and of XOROUT alone. -/
theorem getLsbD_finalize (W : Nat) (xorout r : BitVec S) (R : Bool) (hW : W ≤ S) (i : Nat) :
    (finalize W xorout r R).getLsbD i =
      (decide (i < W) && ((if R then r.getLsbD (W - 1 - i) else r.getLsbD i) ^^ xorout.getLsbD i)) := by
  unfold finalize
  rw [BitVec.getLsbD_and, BitVec.getLsbD_xor, getLsbD_lowMask]
  by_cases h : i < W
  · cases R
    · simp [h, show i < S by omega]
    · rw [if_pos rfl, if_pos rfl, getLsbD_reflect r W hW]
      simp [h, show i < S by omega]
  · simp [h]

/-- 44_finalize.md R151, bit by bit. -/
theorem getLsbD_undoFinalize (W : Nat) (xorout : BitVec S) (c : Word) (R : Bool) (hW : W ≤ S) (hS : S ≤ 64) (i : Nat)
    (hi : i < S) :
    (undoFinalize W xorout c R).getLsbD i =
      if R then decide (i < W) && (c.getLsbD (W - 1 - i) ^^ xorout.getLsbD (W - 1 - i))
      else (decide (i < W) && c.getLsbD i) ^^ xorout.getLsbD i := by
  unfold undoFinalize
  cases R
  · simp only [Bool.false_eq_true, if_false, BitVec.getLsbD_xor, BitVec.getLsbD_setWidth, BitVec.getLsbD_and,
      getLsbD_lowMask, decide_eq_true hi, decide_eq_true (show i < 64 by omega), Bool.true_and]
    rw [Bool.and_comm]
  · simp only [if_true, getLsbD_reflect _ W hW, BitVec.getLsbD_xor, BitVec.getLsbD_setWidth, BitVec.getLsbD_and,
      getLsbD_lowMask]
    by_cases h : i < W
    · simp [h, show W - 1 - i < S by omega, show W - 1 - i < 64 by omega, show W - 1 - i < W by omega]
    · simp [h]

/-- What FIN makes of a remainder depends on its bits `W-1:0` alone (44_finalize.md R157). -/
theorem finalize_congr (W : Nat) (xorout r r' : BitVec S) (R : Bool) (hW : W ≤ S) (h : r.setWidth W = r'.setWidth W) :
    finalize W xorout r R = finalize W xorout r' R := by
  have hbits : ∀ i, i < W → r.getLsbD i = r'.getLsbD i := by
    intro i hi
    have := congrArg (fun v => v.getLsbD i) h
    simpa [BitVec.getLsbD_setWidth, hi] using this
  apply BitVec.eq_of_getLsbD_eq
  intro i _
  rw [getLsbD_finalize W xorout r R hW, getLsbD_finalize W xorout r' R hW]
  by_cases hi : i < W
  · rw [hbits i hi, hbits (W - 1 - i) (by omega)]
  · simp [hi]

end Sys2Proof.Machine
end

