-- ==== Sys2Proof/Laws/State.lean ====
section
/-! SUPPORT. One lemma per field per update of the state, so that no proof unfolds a record update. -/

namespace Sys2Proof.Machine

open Sys2Proof

/-- R2's storage widths as bounds. -/
theorem storage_bounds (c : Instance) : 8 ≤ c.S ∧ c.S ≤ 64 := by
  have := c.S_legal
  omega

@[simp] theorem withBlock_inst (s : State) (b : Block s.inst.S) : (s.withBlock b).inst = s.inst := rfl
@[simp] theorem withBlock_block (s : State) (b : Block s.inst.S) : (s.withBlock b).block = b := rfl
@[simp] theorem withBlock_pending (s : State) (b : Block s.inst.S) : (s.withBlock b).pending = s.pending := rfl
@[simp] theorem withBlock_replies (s : State) (b : Block s.inst.S) : (s.withBlock b).replies = s.replies := rfl
@[simp] theorem withBlock_withBlock (s : State) (b c : Block s.inst.S) : (s.withBlock b).withBlock c = s.withBlock c := rfl
@[simp] theorem withBlock_self (s : State) : s.withBlock s.block = s := rfl
@[simp] theorem reply_inst (s : State) (v : Word) : (s.reply v).inst = s.inst := rfl
@[simp] theorem reply_block (s : State) (v : Word) : (s.reply v).block = s.block := rfl
@[simp] theorem reply_pending (s : State) (v : Word) : (s.reply v).pending = s.pending := rfl
@[simp] theorem reply_replies (s : State) (v : Word) : (s.reply v).replies = s.replies ++ [v] := rfl
@[simp] theorem issue_inst (s : State) (evs : List HostEvent) : (s.issue evs).inst = s.inst := rfl
@[simp] theorem issue_block (s : State) (evs : List HostEvent) : (s.issue evs).block = s.block := rfl
@[simp] theorem issue_pending (s : State) (evs : List HostEvent) : (s.issue evs).pending = evs := rfl
@[simp] theorem issue_replies (s : State) (evs : List HostEvent) : (s.issue evs).replies = s.replies := rfl
@[simp] theorem issue_issue (s : State) (evs evs' : List HostEvent) : (s.issue evs).issue evs' = s.issue evs' := rfl
@[simp] theorem withBlock_issue (s : State) (b : Block s.inst.S) (evs : List HostEvent) :
    (s.withBlock b).issue evs = (s.issue evs).withBlock b := rfl
@[simp] theorem reject_eq (s : State) (e : CmdError) : reject e s = s.withBlock (s.block.raise e) := rfl

variable {S : Nat}

@[simp] theorem setRem_cfg (b : Block S) (v : BitVec S) : (b.setRem v).cfg = b.cfg := rfl
@[simp] theorem setRem_poly (b : Block S) (v : BitVec S) : (b.setRem v).poly = b.poly := rfl
@[simp] theorem setRem_init (b : Block S) (v : BitVec S) : (b.setRem v).init = b.init := rfl
@[simp] theorem setRem_xorout (b : Block S) (v : BitVec S) : (b.setRem v).xorout = b.xorout := rfl
@[simp] theorem setRem_rem (b : Block S) (v : BitVec S) : (b.setRem v).rem = v := rfl
@[simp] theorem setRem_opnd (b : Block S) (v : BitVec S) : (b.setRem v).opnd = b.opnd := rfl
@[simp] theorem setRem_result (b : Block S) (v : BitVec S) : (b.setRem v).result = b.result := rfl
@[simp] theorem setRem_tvalid (b : Block S) (v : BitVec S) : (b.setRem v).tvalid = b.tvalid := rfl
@[simp] theorem setRem_eOp (b : Block S) (v : BitVec S) : (b.setRem v).eOp = b.eOp := rfl
@[simp] theorem setRem_eRsv (b : Block S) (v : BitVec S) : (b.setRem v).eRsv = b.eRsv := rfl
@[simp] theorem setRem_eTab (b : Block S) (v : BitVec S) : (b.setRem v).eTab = b.eTab := rfl
@[simp] theorem setRem_eNb (b : Block S) (v : BitVec S) : (b.setRem v).eNb = b.eNb := rfl
@[simp] theorem setRem_eRb (b : Block S) (v : BitVec S) : (b.setRem v).eRb = b.eRb := rfl
@[simp] theorem setRem_cause (b : Block S) (v : BitVec S) : (b.setRem v).cause = b.cause := rfl
@[simp] theorem setRem_table (b : Block S) (v : BitVec S) : (b.setRem v).table = b.table := rfl
@[simp] theorem setRem_refin (b : Block S) (v : BitVec S) : (b.setRem v).refin = b.refin := rfl
@[simp] theorem setRem_refout (b : Block S) (v : BitVec S) : (b.setRem v).refout = b.refout := rfl
@[simp] theorem setRem_noError (b : Block S) (v : BitVec S) : (b.setRem v).noError = b.noError := rfl

@[simp] theorem setResult_cfg (b : Block S) (v : Word) : (b.setResult v).cfg = b.cfg := rfl
@[simp] theorem setResult_poly (b : Block S) (v : Word) : (b.setResult v).poly = b.poly := rfl
@[simp] theorem setResult_init (b : Block S) (v : Word) : (b.setResult v).init = b.init := rfl
@[simp] theorem setResult_xorout (b : Block S) (v : Word) : (b.setResult v).xorout = b.xorout := rfl
@[simp] theorem setResult_rem (b : Block S) (v : Word) : (b.setResult v).rem = b.rem := rfl
@[simp] theorem setResult_opnd (b : Block S) (v : Word) : (b.setResult v).opnd = b.opnd := rfl
@[simp] theorem setResult_result (b : Block S) (v : Word) : (b.setResult v).result = v := rfl
@[simp] theorem setResult_tvalid (b : Block S) (v : Word) : (b.setResult v).tvalid = b.tvalid := rfl
@[simp] theorem setResult_eOp (b : Block S) (v : Word) : (b.setResult v).eOp = b.eOp := rfl
@[simp] theorem setResult_eRsv (b : Block S) (v : Word) : (b.setResult v).eRsv = b.eRsv := rfl
@[simp] theorem setResult_eTab (b : Block S) (v : Word) : (b.setResult v).eTab = b.eTab := rfl
@[simp] theorem setResult_eNb (b : Block S) (v : Word) : (b.setResult v).eNb = b.eNb := rfl
@[simp] theorem setResult_eRb (b : Block S) (v : Word) : (b.setResult v).eRb = b.eRb := rfl
@[simp] theorem setResult_cause (b : Block S) (v : Word) : (b.setResult v).cause = b.cause := rfl
@[simp] theorem setResult_table (b : Block S) (v : Word) : (b.setResult v).table = b.table := rfl
@[simp] theorem setResult_refin (b : Block S) (v : Word) : (b.setResult v).refin = b.refin := rfl
@[simp] theorem setResult_refout (b : Block S) (v : Word) : (b.setResult v).refout = b.refout := rfl
@[simp] theorem setResult_noError (b : Block S) (v : Word) : (b.setResult v).noError = b.noError := rfl

@[simp] theorem setTable_cfg (b : Block S) (t : Table S) : (b.setTable t).cfg = b.cfg := rfl
@[simp] theorem setTable_poly (b : Block S) (t : Table S) : (b.setTable t).poly = b.poly := rfl
@[simp] theorem setTable_init (b : Block S) (t : Table S) : (b.setTable t).init = b.init := rfl
@[simp] theorem setTable_xorout (b : Block S) (t : Table S) : (b.setTable t).xorout = b.xorout := rfl
@[simp] theorem setTable_rem (b : Block S) (t : Table S) : (b.setTable t).rem = b.rem := rfl
@[simp] theorem setTable_opnd (b : Block S) (t : Table S) : (b.setTable t).opnd = b.opnd := rfl
@[simp] theorem setTable_result (b : Block S) (t : Table S) : (b.setTable t).result = b.result := rfl
@[simp] theorem setTable_tvalid (b : Block S) (t : Table S) : (b.setTable t).tvalid = true := rfl
@[simp] theorem setTable_eOp (b : Block S) (t : Table S) : (b.setTable t).eOp = b.eOp := rfl
@[simp] theorem setTable_eRsv (b : Block S) (t : Table S) : (b.setTable t).eRsv = b.eRsv := rfl
@[simp] theorem setTable_eTab (b : Block S) (t : Table S) : (b.setTable t).eTab = b.eTab := rfl
@[simp] theorem setTable_eNb (b : Block S) (t : Table S) : (b.setTable t).eNb = b.eNb := rfl
@[simp] theorem setTable_eRb (b : Block S) (t : Table S) : (b.setTable t).eRb = b.eRb := rfl
@[simp] theorem setTable_cause (b : Block S) (t : Table S) : (b.setTable t).cause = b.cause := rfl
@[simp] theorem setTable_table (b : Block S) (t : Table S) : (b.setTable t).table = t := rfl
@[simp] theorem setTable_refin (b : Block S) (t : Table S) : (b.setTable t).refin = b.refin := rfl
@[simp] theorem setTable_refout (b : Block S) (t : Table S) : (b.setTable t).refout = b.refout := rfl
@[simp] theorem setTable_noError (b : Block S) (t : Table S) : (b.setTable t).noError = b.noError := rfl

@[simp] theorem writeCfg_cfg (b : Block S) (v : Word) : (b.writeCfg v).cfg = v.setWidth 2 := rfl
@[simp] theorem writeCfg_poly (b : Block S) (v : Word) : (b.writeCfg v).poly = b.poly := rfl
@[simp] theorem writeCfg_init (b : Block S) (v : Word) : (b.writeCfg v).init = b.init := rfl
@[simp] theorem writeCfg_xorout (b : Block S) (v : Word) : (b.writeCfg v).xorout = b.xorout := rfl
@[simp] theorem writeCfg_rem (b : Block S) (v : Word) : (b.writeCfg v).rem = b.rem := rfl
@[simp] theorem writeCfg_opnd (b : Block S) (v : Word) : (b.writeCfg v).opnd = b.opnd := rfl
@[simp] theorem writeCfg_result (b : Block S) (v : Word) : (b.writeCfg v).result = b.result := rfl
@[simp] theorem writeCfg_tvalid (b : Block S) (v : Word) : (b.writeCfg v).tvalid = false := rfl
@[simp] theorem writeCfg_eOp (b : Block S) (v : Word) : (b.writeCfg v).eOp = b.eOp := rfl
@[simp] theorem writeCfg_eRsv (b : Block S) (v : Word) : (b.writeCfg v).eRsv = b.eRsv := rfl
@[simp] theorem writeCfg_eTab (b : Block S) (v : Word) : (b.writeCfg v).eTab = b.eTab := rfl
@[simp] theorem writeCfg_eNb (b : Block S) (v : Word) : (b.writeCfg v).eNb = b.eNb := rfl
@[simp] theorem writeCfg_eRb (b : Block S) (v : Word) : (b.writeCfg v).eRb = b.eRb := rfl
@[simp] theorem writeCfg_cause (b : Block S) (v : Word) : (b.writeCfg v).cause = b.cause := rfl
@[simp] theorem writeCfg_table (b : Block S) (v : Word) : (b.writeCfg v).table = b.table := rfl
@[simp] theorem writeCfg_refin (b : Block S) (v : Word) : (b.writeCfg v).refin = v.getLsbD 0 := by
  simp [Block.refin]
@[simp] theorem writeCfg_refout (b : Block S) (v : Word) : (b.writeCfg v).refout = v.getLsbD 1 := by
  simp [Block.refout]
@[simp] theorem writeCfg_noError (b : Block S) (v : Word) : (b.writeCfg v).noError = b.noError := rfl

@[simp] theorem writePoly_cfg (b : Block S) (v : Word) : (b.writePoly v).cfg = b.cfg := rfl
@[simp] theorem writePoly_poly (b : Block S) (v : Word) : (b.writePoly v).poly = v.setWidth S := rfl
@[simp] theorem writePoly_init (b : Block S) (v : Word) : (b.writePoly v).init = b.init := rfl
@[simp] theorem writePoly_xorout (b : Block S) (v : Word) : (b.writePoly v).xorout = b.xorout := rfl
@[simp] theorem writePoly_rem (b : Block S) (v : Word) : (b.writePoly v).rem = b.rem := rfl
@[simp] theorem writePoly_opnd (b : Block S) (v : Word) : (b.writePoly v).opnd = b.opnd := rfl
@[simp] theorem writePoly_result (b : Block S) (v : Word) : (b.writePoly v).result = b.result := rfl
@[simp] theorem writePoly_tvalid (b : Block S) (v : Word) : (b.writePoly v).tvalid = false := rfl
@[simp] theorem writePoly_eOp (b : Block S) (v : Word) : (b.writePoly v).eOp = b.eOp := rfl
@[simp] theorem writePoly_eRsv (b : Block S) (v : Word) : (b.writePoly v).eRsv = b.eRsv := rfl
@[simp] theorem writePoly_eTab (b : Block S) (v : Word) : (b.writePoly v).eTab = b.eTab := rfl
@[simp] theorem writePoly_eNb (b : Block S) (v : Word) : (b.writePoly v).eNb = b.eNb := rfl
@[simp] theorem writePoly_eRb (b : Block S) (v : Word) : (b.writePoly v).eRb = b.eRb := rfl
@[simp] theorem writePoly_cause (b : Block S) (v : Word) : (b.writePoly v).cause = b.cause := rfl
@[simp] theorem writePoly_table (b : Block S) (v : Word) : (b.writePoly v).table = b.table := rfl
@[simp] theorem writePoly_refin (b : Block S) (v : Word) : (b.writePoly v).refin = b.refin := rfl
@[simp] theorem writePoly_refout (b : Block S) (v : Word) : (b.writePoly v).refout = b.refout := rfl
@[simp] theorem writePoly_noError (b : Block S) (v : Word) : (b.writePoly v).noError = b.noError := rfl

@[simp] theorem writeInit_cfg (b : Block S) (v : Word) : (b.writeInit v).cfg = b.cfg := rfl
@[simp] theorem writeInit_poly (b : Block S) (v : Word) : (b.writeInit v).poly = b.poly := rfl
@[simp] theorem writeInit_init (b : Block S) (v : Word) : (b.writeInit v).init = v.setWidth S := rfl
@[simp] theorem writeInit_xorout (b : Block S) (v : Word) : (b.writeInit v).xorout = b.xorout := rfl
@[simp] theorem writeInit_rem (b : Block S) (v : Word) : (b.writeInit v).rem = b.rem := rfl
@[simp] theorem writeInit_opnd (b : Block S) (v : Word) : (b.writeInit v).opnd = b.opnd := rfl
@[simp] theorem writeInit_result (b : Block S) (v : Word) : (b.writeInit v).result = b.result := rfl
@[simp] theorem writeInit_tvalid (b : Block S) (v : Word) : (b.writeInit v).tvalid = b.tvalid := rfl
@[simp] theorem writeInit_eOp (b : Block S) (v : Word) : (b.writeInit v).eOp = b.eOp := rfl
@[simp] theorem writeInit_eRsv (b : Block S) (v : Word) : (b.writeInit v).eRsv = b.eRsv := rfl
@[simp] theorem writeInit_eTab (b : Block S) (v : Word) : (b.writeInit v).eTab = b.eTab := rfl
@[simp] theorem writeInit_eNb (b : Block S) (v : Word) : (b.writeInit v).eNb = b.eNb := rfl
@[simp] theorem writeInit_eRb (b : Block S) (v : Word) : (b.writeInit v).eRb = b.eRb := rfl
@[simp] theorem writeInit_cause (b : Block S) (v : Word) : (b.writeInit v).cause = b.cause := rfl
@[simp] theorem writeInit_table (b : Block S) (v : Word) : (b.writeInit v).table = b.table := rfl
@[simp] theorem writeInit_refin (b : Block S) (v : Word) : (b.writeInit v).refin = b.refin := rfl
@[simp] theorem writeInit_refout (b : Block S) (v : Word) : (b.writeInit v).refout = b.refout := rfl
@[simp] theorem writeInit_noError (b : Block S) (v : Word) : (b.writeInit v).noError = b.noError := rfl

@[simp] theorem writeXorout_cfg (b : Block S) (v : Word) : (b.writeXorout v).cfg = b.cfg := rfl
@[simp] theorem writeXorout_poly (b : Block S) (v : Word) : (b.writeXorout v).poly = b.poly := rfl
@[simp] theorem writeXorout_init (b : Block S) (v : Word) : (b.writeXorout v).init = b.init := rfl
@[simp] theorem writeXorout_xorout (b : Block S) (v : Word) : (b.writeXorout v).xorout = v.setWidth S := rfl
@[simp] theorem writeXorout_rem (b : Block S) (v : Word) : (b.writeXorout v).rem = b.rem := rfl
@[simp] theorem writeXorout_opnd (b : Block S) (v : Word) : (b.writeXorout v).opnd = b.opnd := rfl
@[simp] theorem writeXorout_result (b : Block S) (v : Word) : (b.writeXorout v).result = b.result := rfl
@[simp] theorem writeXorout_tvalid (b : Block S) (v : Word) : (b.writeXorout v).tvalid = b.tvalid := rfl
@[simp] theorem writeXorout_eOp (b : Block S) (v : Word) : (b.writeXorout v).eOp = b.eOp := rfl
@[simp] theorem writeXorout_eRsv (b : Block S) (v : Word) : (b.writeXorout v).eRsv = b.eRsv := rfl
@[simp] theorem writeXorout_eTab (b : Block S) (v : Word) : (b.writeXorout v).eTab = b.eTab := rfl
@[simp] theorem writeXorout_eNb (b : Block S) (v : Word) : (b.writeXorout v).eNb = b.eNb := rfl
@[simp] theorem writeXorout_eRb (b : Block S) (v : Word) : (b.writeXorout v).eRb = b.eRb := rfl
@[simp] theorem writeXorout_cause (b : Block S) (v : Word) : (b.writeXorout v).cause = b.cause := rfl
@[simp] theorem writeXorout_table (b : Block S) (v : Word) : (b.writeXorout v).table = b.table := rfl
@[simp] theorem writeXorout_refin (b : Block S) (v : Word) : (b.writeXorout v).refin = b.refin := rfl
@[simp] theorem writeXorout_refout (b : Block S) (v : Word) : (b.writeXorout v).refout = b.refout := rfl
@[simp] theorem writeXorout_noError (b : Block S) (v : Word) : (b.writeXorout v).noError = b.noError := rfl

@[simp] theorem writeRem_cfg (b : Block S) (v : Word) : (b.writeRem v).cfg = b.cfg := rfl
@[simp] theorem writeRem_poly (b : Block S) (v : Word) : (b.writeRem v).poly = b.poly := rfl
@[simp] theorem writeRem_init (b : Block S) (v : Word) : (b.writeRem v).init = b.init := rfl
@[simp] theorem writeRem_xorout (b : Block S) (v : Word) : (b.writeRem v).xorout = b.xorout := rfl
@[simp] theorem writeRem_rem (b : Block S) (v : Word) : (b.writeRem v).rem = v.setWidth S := rfl
@[simp] theorem writeRem_opnd (b : Block S) (v : Word) : (b.writeRem v).opnd = b.opnd := rfl
@[simp] theorem writeRem_result (b : Block S) (v : Word) : (b.writeRem v).result = b.result := rfl
@[simp] theorem writeRem_tvalid (b : Block S) (v : Word) : (b.writeRem v).tvalid = b.tvalid := rfl
@[simp] theorem writeRem_eOp (b : Block S) (v : Word) : (b.writeRem v).eOp = b.eOp := rfl
@[simp] theorem writeRem_eRsv (b : Block S) (v : Word) : (b.writeRem v).eRsv = b.eRsv := rfl
@[simp] theorem writeRem_eTab (b : Block S) (v : Word) : (b.writeRem v).eTab = b.eTab := rfl
@[simp] theorem writeRem_eNb (b : Block S) (v : Word) : (b.writeRem v).eNb = b.eNb := rfl
@[simp] theorem writeRem_eRb (b : Block S) (v : Word) : (b.writeRem v).eRb = b.eRb := rfl
@[simp] theorem writeRem_cause (b : Block S) (v : Word) : (b.writeRem v).cause = b.cause := rfl
@[simp] theorem writeRem_table (b : Block S) (v : Word) : (b.writeRem v).table = b.table := rfl
@[simp] theorem writeRem_refin (b : Block S) (v : Word) : (b.writeRem v).refin = b.refin := rfl
@[simp] theorem writeRem_refout (b : Block S) (v : Word) : (b.writeRem v).refout = b.refout := rfl
@[simp] theorem writeRem_noError (b : Block S) (v : Word) : (b.writeRem v).noError = b.noError := rfl

@[simp] theorem writeOpnd_cfg (b : Block S) (v : Word) : (b.writeOpnd v).cfg = b.cfg := rfl
@[simp] theorem writeOpnd_poly (b : Block S) (v : Word) : (b.writeOpnd v).poly = b.poly := rfl
@[simp] theorem writeOpnd_init (b : Block S) (v : Word) : (b.writeOpnd v).init = b.init := rfl
@[simp] theorem writeOpnd_xorout (b : Block S) (v : Word) : (b.writeOpnd v).xorout = b.xorout := rfl
@[simp] theorem writeOpnd_rem (b : Block S) (v : Word) : (b.writeOpnd v).rem = b.rem := rfl
@[simp] theorem writeOpnd_opnd (b : Block S) (v : Word) : (b.writeOpnd v).opnd = v := rfl
@[simp] theorem writeOpnd_result (b : Block S) (v : Word) : (b.writeOpnd v).result = b.result := rfl
@[simp] theorem writeOpnd_tvalid (b : Block S) (v : Word) : (b.writeOpnd v).tvalid = b.tvalid := rfl
@[simp] theorem writeOpnd_eOp (b : Block S) (v : Word) : (b.writeOpnd v).eOp = b.eOp := rfl
@[simp] theorem writeOpnd_eRsv (b : Block S) (v : Word) : (b.writeOpnd v).eRsv = b.eRsv := rfl
@[simp] theorem writeOpnd_eTab (b : Block S) (v : Word) : (b.writeOpnd v).eTab = b.eTab := rfl
@[simp] theorem writeOpnd_eNb (b : Block S) (v : Word) : (b.writeOpnd v).eNb = b.eNb := rfl
@[simp] theorem writeOpnd_eRb (b : Block S) (v : Word) : (b.writeOpnd v).eRb = b.eRb := rfl
@[simp] theorem writeOpnd_cause (b : Block S) (v : Word) : (b.writeOpnd v).cause = b.cause := rfl
@[simp] theorem writeOpnd_table (b : Block S) (v : Word) : (b.writeOpnd v).table = b.table := rfl
@[simp] theorem writeOpnd_refin (b : Block S) (v : Word) : (b.writeOpnd v).refin = b.refin := rfl
@[simp] theorem writeOpnd_refout (b : Block S) (v : Word) : (b.writeOpnd v).refout = b.refout := rfl
@[simp] theorem writeOpnd_noError (b : Block S) (v : Word) : (b.writeOpnd v).noError = b.noError := rfl

@[simp] theorem clearErrorBits_cfg (b : Block S) (v : Word) : (b.clearErrorBits v).cfg = b.cfg := rfl
@[simp] theorem clearErrorBits_poly (b : Block S) (v : Word) : (b.clearErrorBits v).poly = b.poly := rfl
@[simp] theorem clearErrorBits_init (b : Block S) (v : Word) : (b.clearErrorBits v).init = b.init := rfl
@[simp] theorem clearErrorBits_xorout (b : Block S) (v : Word) : (b.clearErrorBits v).xorout = b.xorout := rfl
@[simp] theorem clearErrorBits_rem (b : Block S) (v : Word) : (b.clearErrorBits v).rem = b.rem := rfl
@[simp] theorem clearErrorBits_opnd (b : Block S) (v : Word) : (b.clearErrorBits v).opnd = b.opnd := rfl
@[simp] theorem clearErrorBits_result (b : Block S) (v : Word) : (b.clearErrorBits v).result = b.result := rfl
@[simp] theorem clearErrorBits_tvalid (b : Block S) (v : Word) : (b.clearErrorBits v).tvalid = b.tvalid := rfl
@[simp] theorem clearErrorBits_eOp (b : Block S) (v : Word) : (b.clearErrorBits v).eOp = (b.eOp && !v.getLsbD 1) := rfl
@[simp] theorem clearErrorBits_eRsv (b : Block S) (v : Word) : (b.clearErrorBits v).eRsv = (b.eRsv && !v.getLsbD 2) := rfl
@[simp] theorem clearErrorBits_eTab (b : Block S) (v : Word) : (b.clearErrorBits v).eTab = (b.eTab && !v.getLsbD 3) := rfl
@[simp] theorem clearErrorBits_eNb (b : Block S) (v : Word) : (b.clearErrorBits v).eNb = (b.eNb && !v.getLsbD 4) := rfl
@[simp] theorem clearErrorBits_eRb (b : Block S) (v : Word) : (b.clearErrorBits v).eRb = (b.eRb && !v.getLsbD 5) := rfl
@[simp] theorem clearErrorBits_cause (b : Block S) (v : Word) : (b.clearErrorBits v).cause = b.cause := rfl
@[simp] theorem clearErrorBits_table (b : Block S) (v : Word) : (b.clearErrorBits v).table = b.table := rfl
@[simp] theorem clearErrorBits_refin (b : Block S) (v : Word) : (b.clearErrorBits v).refin = b.refin := rfl
@[simp] theorem clearErrorBits_refout (b : Block S) (v : Word) : (b.clearErrorBits v).refout = b.refout := rfl

@[simp] theorem raise_cfg (b : Block S) (e : CmdError) : (b.raise e).cfg = b.cfg := by
  cases e <;> simp [Block.raise]
@[simp] theorem raise_poly (b : Block S) (e : CmdError) : (b.raise e).poly = b.poly := by
  cases e <;> simp [Block.raise]
@[simp] theorem raise_init (b : Block S) (e : CmdError) : (b.raise e).init = b.init := by
  cases e <;> simp [Block.raise]
@[simp] theorem raise_xorout (b : Block S) (e : CmdError) : (b.raise e).xorout = b.xorout := by
  cases e <;> simp [Block.raise]
@[simp] theorem raise_rem (b : Block S) (e : CmdError) : (b.raise e).rem = b.rem := by
  cases e <;> simp [Block.raise]
@[simp] theorem raise_opnd (b : Block S) (e : CmdError) : (b.raise e).opnd = b.opnd := by
  cases e <;> simp [Block.raise]
@[simp] theorem raise_result (b : Block S) (e : CmdError) : (b.raise e).result = b.result := by
  cases e <;> simp [Block.raise]
@[simp] theorem raise_tvalid (b : Block S) (e : CmdError) : (b.raise e).tvalid = b.tvalid := by
  cases e <;> simp [Block.raise]
@[simp] theorem raise_eOp (b : Block S) (e : CmdError) : (b.raise e).eOp = (b.eOp || decide (e = .eOp)) := by
  cases e <;> simp [Block.raise]
@[simp] theorem raise_eRsv (b : Block S) (e : CmdError) : (b.raise e).eRsv = (b.eRsv || decide (e = .eRsv)) := by
  cases e <;> simp [Block.raise]
@[simp] theorem raise_eTab (b : Block S) (e : CmdError) : (b.raise e).eTab = (b.eTab || decide (e = .eTab)) := by
  cases e <;> simp [Block.raise]
@[simp] theorem raise_eNb (b : Block S) (e : CmdError) : (b.raise e).eNb = (b.eNb || decide (e = .eNb)) := by
  cases e <;> simp [Block.raise]
@[simp] theorem raise_eRb (b : Block S) (e : CmdError) : (b.raise e).eRb = (b.eRb || decide (e = .eRb)) := by
  cases e <;> simp [Block.raise]
@[simp] theorem raise_cause (b : Block S) (e : CmdError) : (b.raise e).cause = errorCode e := by
  cases e <;> simp [Block.raise]
@[simp] theorem raise_table (b : Block S) (e : CmdError) : (b.raise e).table = b.table := by
  cases e <;> simp [Block.raise]
@[simp] theorem raise_refin (b : Block S) (e : CmdError) : (b.raise e).refin = b.refin := by
  simp [Block.refin]
@[simp] theorem raise_refout (b : Block S) (e : CmdError) : (b.raise e).refout = b.refout := by
  simp [Block.refout]

/-- After a rejection some error bit is set. -/
@[simp] theorem raise_noError (b : Block S) (e : CmdError) : (b.raise e).noError = false := by
  cases e <;> simp [Block.noError]

@[simp] theorem errorCode_ne_zero (e : CmdError) : errorCode e ≠ 0#4 := by
  cases e <;> decide

theorem errorCode_le (e : CmdError) : (errorCode e).toNat ≤ 5 := by
  cases e <;> decide

@[simp] theorem writeStatus_cfg (b : Block S) (v : Word) : (b.writeStatus v).cfg = b.cfg := by
  unfold Block.writeStatus; simp only []; split <;> rfl
@[simp] theorem writeStatus_poly (b : Block S) (v : Word) : (b.writeStatus v).poly = b.poly := by
  unfold Block.writeStatus; simp only []; split <;> rfl
@[simp] theorem writeStatus_init (b : Block S) (v : Word) : (b.writeStatus v).init = b.init := by
  unfold Block.writeStatus; simp only []; split <;> rfl
@[simp] theorem writeStatus_xorout (b : Block S) (v : Word) : (b.writeStatus v).xorout = b.xorout := by
  unfold Block.writeStatus; simp only []; split <;> rfl
@[simp] theorem writeStatus_rem (b : Block S) (v : Word) : (b.writeStatus v).rem = b.rem := by
  unfold Block.writeStatus; simp only []; split <;> rfl
@[simp] theorem writeStatus_opnd (b : Block S) (v : Word) : (b.writeStatus v).opnd = b.opnd := by
  unfold Block.writeStatus; simp only []; split <;> rfl
@[simp] theorem writeStatus_result (b : Block S) (v : Word) : (b.writeStatus v).result = b.result := by
  unfold Block.writeStatus; simp only []; split <;> rfl
@[simp] theorem writeStatus_tvalid (b : Block S) (v : Word) : (b.writeStatus v).tvalid = b.tvalid := by
  unfold Block.writeStatus; simp only []; split <;> rfl
@[simp] theorem writeStatus_eOp (b : Block S) (v : Word) : (b.writeStatus v).eOp = (b.eOp && !v.getLsbD 1) := by
  unfold Block.writeStatus; simp only []; split <;> rfl
@[simp] theorem writeStatus_eRsv (b : Block S) (v : Word) : (b.writeStatus v).eRsv = (b.eRsv && !v.getLsbD 2) := by
  unfold Block.writeStatus; simp only []; split <;> rfl
@[simp] theorem writeStatus_eTab (b : Block S) (v : Word) : (b.writeStatus v).eTab = (b.eTab && !v.getLsbD 3) := by
  unfold Block.writeStatus; simp only []; split <;> rfl
@[simp] theorem writeStatus_eNb (b : Block S) (v : Word) : (b.writeStatus v).eNb = (b.eNb && !v.getLsbD 4) := by
  unfold Block.writeStatus; simp only []; split <;> rfl
@[simp] theorem writeStatus_eRb (b : Block S) (v : Word) : (b.writeStatus v).eRb = (b.eRb && !v.getLsbD 5) := by
  unfold Block.writeStatus; simp only []; split <;> rfl
theorem writeStatus_cause (b : Block S) (v : Word) :
    (b.writeStatus v).cause = if (b.clearErrorBits v).noError then 0#4 else b.cause := by
  unfold Block.writeStatus; simp only []; split <;> rfl
@[simp] theorem writeStatus_table (b : Block S) (v : Word) : (b.writeStatus v).table = b.table := by
  unfold Block.writeStatus; simp only []; split <;> rfl
@[simp] theorem writeStatus_refin (b : Block S) (v : Word) : (b.writeStatus v).refin = b.refin := by
  simp [Block.refin]
@[simp] theorem writeStatus_refout (b : Block S) (v : Word) : (b.writeStatus v).refout = b.refout := by
  simp [Block.refout]
@[simp] theorem writeStatus_noError (b : Block S) (v : Word) : (b.writeStatus v).noError = (b.clearErrorBits v).noError := by
  simp [Block.noError]

end Sys2Proof.Machine
end

