-- ==== Sys2Proof/Laws/Ops.lean ====
section
/-! SUPPORT. What one command, one event and one step can do, said once. -/

namespace Sys2Proof.Machine

open Sys2Proof

/-- All a command can do to the block: nothing, a new REM, a new RESULT, the whole table with TVALID, or a rejection.
It always gives a next state, and it never touches the host's side. -/
theorem exec_cases (i : Instr) (s : State) :
    ∃ b, exec i s = .next (s.withBlock b) ∧
      (b = s.block ∨ (∃ v, b = s.block.setRem v) ∨ (∃ v, b = s.block.setResult v) ∨
        b = s.block.setTable (buildTable s.inst.W s.block.refin s.block.poly) ∨ ∃ e, b = s.block.raise e) := by
  cases i with
  | nop => exact ⟨s.block, rfl, .inl rfl⟩
  | seed => exact ⟨_, rfl, .inr (.inl ⟨_, rfl⟩)⟩
  | bitb d => exact ⟨_, rfl, .inr (.inl ⟨_, rfl⟩)⟩
  | tabb d =>
    simp only [exec, execTabb]
    split
    · exact ⟨_, rfl, .inr (.inl ⟨_, rfl⟩)⟩
    · exact ⟨_, rfl, .inr (.inr (.inr (.inr ⟨_, rfl⟩)))⟩
  | subb d n =>
    simp only [exec, execSubb]
    split
    · exact ⟨_, rfl, .inr (.inr (.inr (.inr ⟨_, rfl⟩)))⟩
    · exact ⟨_, rfl, .inr (.inl ⟨_, rfl⟩)⟩
  | fin m =>
    simp only [exec, execFin]
    split
    · exact ⟨_, rfl, .inr (.inr (.inr (.inr ⟨_, rfl⟩)))⟩
    · exact ⟨_, rfl, .inr (.inr (.inl ⟨_, rfl⟩))⟩
  | unfin m =>
    simp only [exec, execUnfin]
    split
    · exact ⟨_, rfl, .inr (.inr (.inr (.inr ⟨_, rfl⟩)))⟩
    · exact ⟨_, rfl, .inr (.inl ⟨_, rfl⟩)⟩
  | refl k =>
    simp only [exec, execRefl]
    split
    · exact ⟨_, rfl, .inr (.inr (.inr (.inr ⟨_, rfl⟩)))⟩
    · exact ⟨_, rfl, .inr (.inr (.inl ⟨_, rfl⟩))⟩
  | build => exact ⟨_, rfl, .inr (.inr (.inr (.inl rfl)))⟩
  | trd d =>
    simp only [exec, execTrd]
    split
    · exact ⟨_, rfl, .inr (.inr (.inl ⟨_, rfl⟩))⟩
    · exact ⟨_, rfl, .inr (.inr (.inr (.inr ⟨_, rfl⟩)))⟩

/-- Which commands can change which field: the configuration registers and OPND never, the others by name. -/
theorem exec_writes (i : Instr) (s : State) :
    ∃ b, exec i s = .next (s.withBlock b) ∧
      b.cfg = s.block.cfg ∧ b.poly = s.block.poly ∧ b.init = s.block.init ∧ b.xorout = s.block.xorout ∧
      b.opnd = s.block.opnd ∧
      (b.rem ≠ s.block.rem →
        i = .seed ∨ (∃ d, i = .bitb d ∨ i = .tabb d) ∨ (∃ d n, i = .subb d n) ∨ ∃ m, i = .unfin m) ∧
      (b.result ≠ s.block.result → (∃ m, i = .fin m) ∨ (∃ k, i = .refl k) ∨ ∃ d, i = .trd d) ∧
      (b.table ≠ s.block.table → i = .build) ∧ (i = .build → b.tvalid = true) ∧
      (i ≠ .build → b.tvalid = s.block.tvalid) := by
  cases i
  case nop => exact ⟨s.block, rfl, by simp⟩
  case tabb d => simp only [exec, execTabb]; split <;> exact ⟨_, rfl, by simp⟩
  case subb d n => simp only [exec, execSubb]; split <;> exact ⟨_, rfl, by simp⟩
  case fin m => simp only [exec, execFin]; split <;> exact ⟨_, rfl, by simp⟩
  case unfin m => simp only [exec, execUnfin]; split <;> exact ⟨_, rfl, by simp⟩
  case refl k => simp only [exec, execRefl]; split <;> exact ⟨_, rfl, by simp⟩
  case trd d => simp only [exec, execTrd]; split <;> exact ⟨_, rfl, by simp⟩
  all_goals exact ⟨_, rfl, by simp⟩

/-- A register that holds state has one index. -/
theorem portReg_eq_iff (i : BitVec 4) :
    (portReg i = .cfg ↔ i = 1) ∧ (portReg i = .poly ↔ i = 2) ∧ (portReg i = .init ↔ i = 3) ∧
      (portReg i = .xorout ↔ i = 4) ∧ (portReg i = .rem ↔ i = 5) ∧ (portReg i = .opnd ↔ i = 6) ∧
      (portReg i = .cmd ↔ i = 8) ∧ (portReg i = .status ↔ i = 9) := by
  revert i; decide

/-- The rejections a command's meaning makes itself, and the commands that pass them. -/
theorem exec_tabb_of_tvalid (d : Byte) (s : State) (h : s.block.tvalid = true) :
    exec (.tabb d) s =
      .next (s.withBlock (s.block.setRem (tabByte s.inst.W s.block.refin s.block.table s.block.rem d))) := by
  simp [exec, execTabb, h]

theorem exec_tabb_of_not_tvalid (d : Byte) (s : State) (h : s.block.tvalid = false) :
    exec (.tabb d) s = .next (reject .eTab s) := by
  simp [exec, execTabb, h]

theorem exec_trd_of_tvalid (d : Byte) (s : State) (h : s.block.tvalid = true) :
    exec (.trd d) s = .next (s.withBlock (s.block.setResult ((readTable s.block.table d).setWidth 64))) := by
  simp [exec, execTrd, h]

theorem exec_trd_of_not_tvalid (d : Byte) (s : State) (h : s.block.tvalid = false) :
    exec (.trd d) s = .next (reject .eTab s) := by
  simp [exec, execTrd, h]

theorem exec_subb_of_ne_zero (d : Byte) (n : BitVec 3) (s : State) (h : n ≠ 0) :
    exec (.subb d n) s =
      .next (s.withBlock (s.block.setRem (subBits s.inst.W s.block.refin s.block.poly s.block.rem d n.toNat))) := by
  simp only [exec, execSubb, if_neg h]

theorem exec_fin_of_effR (m : ReflMode) (s : State) (R : Bool) (h : effR m s.block.refin s.block.refout = some R) :
    exec (.fin m) s =
      .next (s.withBlock (s.block.setResult ((finalize s.inst.W s.block.xorout s.block.rem R).setWidth 64))) := by
  simp [exec, execFin, h]

theorem exec_unfin_of_effR (m : ReflMode) (s : State) (R : Bool) (h : effR m s.block.refin s.block.refout = some R) :
    exec (.unfin m) s =
      .next (s.withBlock (s.block.setRem (undoFinalize s.inst.W s.block.xorout s.block.opnd R))) := by
  simp [exec, execUnfin, h]

theorem exec_refl_of_le (k : BitVec 7) (s : State) (h : k.toNat ≤ 64) :
    exec (.refl k) s = .next (s.withBlock (s.block.setResult (reflect s.block.opnd k.toNat))) := by
  simp only [exec, execRefl, if_neg (Nat.not_lt.2 h)]

/-- A command written to CMD, by what the decoder reads. -/
theorem step_command (s : State) (rest : List HostEvent) (w : Word) :
    step (s.issue (.write 8 w :: rest)) = runCommand w (s.issue rest) := rfl

theorem runCommand_of_ok (w : Word) (s : State) (i : Instr) (h : decode w = .ok i) : runCommand w s = exec i s := by
  simp [runCommand, h]

theorem runCommand_of_error (w : Word) (s : State) (e : CmdError) (h : decode w = .error e) :
    runCommand w s = .next (reject e s) := by
  simp [runCommand, h]

/-- All a host write can do to the block, besides running a command. -/
theorem regWrite_cases (i : BitVec 4) (v : Word) (s : State) :
    (portReg i = .cmd ∧ regWrite i v s = runCommand v s) ∨
      (portReg i ≠ .cmd ∧ ∃ b, regWrite i v s = .next (s.withBlock b) ∧
        ((b = s.block ∧ (portReg i = .id ∨ portReg i = .result ∨ portReg i = .reserved)) ∨
          (portReg i = .cfg ∧ b = s.block.writeCfg v) ∨ (portReg i = .poly ∧ b = s.block.writePoly v) ∨
          (portReg i = .init ∧ b = s.block.writeInit v) ∨ (portReg i = .xorout ∧ b = s.block.writeXorout v) ∨
          (portReg i = .rem ∧ b = s.block.writeRem v) ∨ (portReg i = .opnd ∧ b = s.block.writeOpnd v) ∨
          (portReg i = .status ∧ b = s.block.writeStatus v))) := by
  unfold regWrite
  cases portReg i
  case cmd => exact .inl ⟨rfl, rfl⟩
  case id => exact .inr ⟨by decide, s.block, rfl, by simp⟩
  case result => exact .inr ⟨by decide, s.block, rfl, by simp⟩
  case reserved => exact .inr ⟨by decide, s.block, rfl, by simp⟩
  all_goals exact .inr ⟨by decide, _, rfl, by simp⟩

/-- A host write always gives a next state, and never touches the host's side. -/
theorem regWrite_next (i : BitVec 4) (v : Word) (s : State) : ∃ b, regWrite i v s = .next (s.withBlock b) := by
  rcases regWrite_cases i v s with ⟨-, h⟩ | ⟨-, b, h, -⟩
  · rw [h, runCommand]
    split
    · obtain ⟨b, hb, -⟩ := exec_cases _ s
      exact ⟨b, hb⟩
    · exact ⟨_, rfl⟩
  · exact ⟨b, h⟩

/-- One event always gives a next state of the same instance, and takes nothing from the events still to come. -/
theorem hostEvent_next (e : HostEvent) (s : State) :
    ∃ (b : Block s.inst.S) (rs : List Word), hostEvent e s = .next ⟨s.inst, b, s.pending, rs⟩ := by
  cases e with
  | read i => exact ⟨s.block, _, rfl⟩
  | write i v =>
    obtain ⟨b, hb⟩ := regWrite_next i v s
    exact ⟨b, s.replies, hb⟩
  | reset => exact ⟨_, s.replies, rfl⟩

@[simp] theorem step_issue_cons (s : State) (e : HostEvent) (rest : List HostEvent) :
    step (s.issue (e :: rest)) = hostEvent e (s.issue rest) := rfl

theorem step_of_pending_nil (s : State) (h : s.pending = []) : step s = .next s := by
  unfold step nextEvent; rw [h]

theorem step_of_pending_cons (s : State) (e : HostEvent) (rest : List HostEvent) (h : s.pending = e :: rest) :
    step s = hostEvent e (s.issue rest) := by
  unfold step nextEvent; rw [h]

theorem run_succ_of_step (k : Nat) (s t : State) (h : step s = .next t) : run (k + 1) s = run k t := by
  simp [run, h]

/-- A run cut in two. -/
theorem run_add (j k : Nat) (s t : State) (h : run j s = .next t) : run (j + k) s = run k t := by
  induction j generalizing s with
  | zero => cases h; simp
  | succ j ih =>
    rw [Nat.add_right_comm]
    simp only [run] at *
    split at h
    · exact ih _ h
    · cases h
    · cases h

@[simp] theorem calculateEach_nil (x : DataEngine) : calculateEach x [] = [] := rfl

@[simp] theorem calculateEach_cons (x : DataEngine) (d : List Byte) (msgs : List (List Byte)) :
    calculateEach x (d :: msgs) = wholeMessage x d ++ calculateEach x msgs := rfl

/-- A whole message takes one access a byte and three more: SEED, FIN and the read. -/
@[simp] theorem length_wholeMessage (x : DataEngine) (d : List Byte) : (wholeMessage x d).length = d.length + 3 := by
  simp [wholeMessage, seedFresh, feedBytes, finish]

/-- `Calculate` over all of its buffer is the whole message. -/
theorem calculate_length (x : DataEngine) (d : List Byte) : calculate x d d.length = some (wholeMessage x d) := by
  simp [calculate, takeBytes]

end Sys2Proof.Machine
end

