-- ==== Sys2Proof/Laws/PerInstr.lean ====
section
/-! SUPPORT. Facts about every command as syntax, one lemma per constructor. -/

namespace Sys2Proof.Laws.EncodeMatches

open Sys2Proof

/-- The word of a command matches its row of the opcode table: `w AND (0xF OR RSV) = OP` (30_encoding.md section 3). -/
def Statement (i : Instr) : Prop :=
  encode i &&& 0xFFFFFFFF80F800CF = i.opcode.setWidth 64

/-- No field the opcode uses lies under the table's mask, so only the opcode is left. -/
theorem of_fields (i : Instr) (h : i.fieldBits &&& 0xFFFFFFFF80F800CF = 0) : Statement i := by
  unfold Statement
  apply BitVec.eq_of_getLsbD_eq
  intro j hj
  have hb := congrArg (fun v => v.getLsbD j) h
  simp only [BitVec.getLsbD_and] at hb
  rw [BitVec.getLsbD_and, encode, BitVec.getLsbD_or, getLsbD_opcode]
  by_cases hop : j < 4
  · have hm : (0xFFFFFFFF80F800CF : Word).getLsbD j = true := by interval_cases j <;> rfl
    rw [fieldBits_low i j hop, hm]
    simp
  · rw [BitVec.getLsbD_of_ge i.opcode j (by omega), Bool.false_or]
    simpa using hb

/-- A field bit set anywhere is a bit of the used mask, which the table's mask leaves out above the opcode. -/
theorem fieldBits_and_mask (i : Instr) (hm : i.usedBits &&& 0xFFFFFFFF80F800CF = 0xF) :
    i.fieldBits &&& 0xFFFFFFFF80F800CF = 0 := by
  apply BitVec.eq_of_getLsbD_eq
  intro j hj
  rw [BitVec.getLsbD_and]
  by_cases hop : j < 4
  · rw [fieldBits_low i j hop]; simp
  · have hb := congrArg (fun v => v.getLsbD j) hm
    have hF : (0xF : Word).getLsbD j = false := by
      rw [show (0xF : Word) = BitVec.setWidth 64 (0xF : BitVec 4) from rfl, getLsbD_opcode]
      exact BitVec.getLsbD_of_ge _ _ (by omega)
    simp only [BitVec.getLsbD_and, hF] at hb
    by_contra hc
    have h2 : i.fieldBits.getLsbD j = true ∧ (0xFFFFFFFF80F800CF : Word).getLsbD j = true := by
      simpa using hc
    rw [fieldBits_used i j h2.1, h2.2] at hb
    exact absurd hb (by decide)

theorem nop : Statement .nop := of_fields _ (fieldBits_and_mask _ (by simp only [Instr.usedBits]; decide))
theorem seed : Statement .seed := of_fields _ (fieldBits_and_mask _ (by simp only [Instr.usedBits]; decide))
theorem bitb (data : Byte) : Statement (.bitb data) := of_fields _ (fieldBits_and_mask _ (by simp only [Instr.usedBits]; decide))
theorem tabb (data : Byte) : Statement (.tabb data) := of_fields _ (fieldBits_and_mask _ (by simp only [Instr.usedBits]; decide))
theorem subb (data : Byte) (nb : BitVec 3) : Statement (.subb data nb) :=
  of_fields _ (fieldBits_and_mask _ (by simp only [Instr.usedBits]; decide))
theorem fin (rm : ReflMode) : Statement (.fin rm) := of_fields _ (fieldBits_and_mask _ (by simp only [Instr.usedBits]; decide))
theorem unfin (rm : ReflMode) : Statement (.unfin rm) := of_fields _ (fieldBits_and_mask _ (by simp only [Instr.usedBits]; decide))
theorem refl (rb : BitVec 7) : Statement (.refl rb) := of_fields _ (fieldBits_and_mask _ (by simp only [Instr.usedBits]; decide))
theorem build : Statement .build := of_fields _ (fieldBits_and_mask _ (by simp only [Instr.usedBits]; decide))
theorem trd (data : Byte) : Statement (.trd data) := of_fields _ (fieldBits_and_mask _ (by simp only [Instr.usedBits]; decide))

end Sys2Proof.Laws.EncodeMatches
end

