-- ==== Sys2Proof/Laws/SubByte.lean ====
section
/-! SUPPORT. A byte in two parts (43_subbyte.md R143). -/

namespace Sys2Proof.Machine

open Sys2Proof

variable {S : Nat}

theorem iterate_split (f : BitVec S → BitVec S) (k n : Nat) (hk : k ≤ n) (x : BitVec S) :
    f^[n] x = f^[n - k] (f^[k] x) := by
  rw [← Function.iterate_add_apply, Nat.sub_add_cancel hk]

@[simp] theorem getLsbD_topMask (n i : Nat) :
    (topMask n).getLsbD i = (decide (i < 8) && decide (8 ≤ i + n)) := by
  have hFF : ∀ j, (0xFF#8).getLsbD j = decide (j < 8) := by
    intro j
    rw [show (0xFF#8) = BitVec.allOnes 8 from rfl, BitVec.getLsbD_allOnes]
  rw [topMask, BitVec.getLsbD_shiftLeft, hFF]
  by_cases h : i < 8
  · by_cases h2 : 8 ≤ i + n
    · simp [h, h2, show ¬ i < 8 - n by omega, show i - (8 - n) < 8 by omega]
    · simp [h2, show i < 8 - n by omega]
  · simp [h]

/-- Bits that are not tested yet come through `k` right steps unchanged. -/
theorem stepR_iterate_feed (q a y : BitVec S) (k : Nat) (hy : ∀ i, S ≤ k + i → y.getLsbD i = false) :
    (stepR q)^[k] (a ^^^ y <<< k) = (stepR q)^[k] a ^^^ y := by
  rw [iterate_xor _ (stepR_xor _), stepR_iterate_of_low_zero _ (y <<< k)]
  · congr 1
    apply BitVec.eq_of_getLsbD_eq
    intro i hi
    by_cases h : k + i < S
    · simp [h, hi]
    · simp [h, hy i (by omega)]
  · intro j hj
    simp [hj]

/-- Bits that are not tested yet are only shifted by `k` left steps. -/
theorem stepL_iterate_feed (p a y : BitVec S) (t k : Nat) (hk : k ≤ t + 1)
    (hy : ∀ j, j < k → y.getLsbD (t - j) = false) :
    (stepL p t)^[k] (a ^^^ y) = (stepL p t)^[k] a ^^^ y <<< k := by
  rw [iterate_xor _ (stepL_xor _ _), stepL_iterate_of_high_zero _ _ y k hk hy]

/-- In REFLECTED: the first `k` bits, then the rest of the byte, are the whole byte. -/
theorem subBits_split_reflected (W : Nat) (refin : Bool) (poly r : BitVec S) (b : Byte) (k : Nat) (hk : k ≤ 8)
    (hS : 8 ≤ S) (h : regime W refin = .reflected) :
    subBits W refin poly (subBits W refin poly r b k) (b >>> k) (8 - k) = bitByte W refin poly r b := by
  unfold bitByte subBits keepBits foldBits
  rw [h]
  simp only []
  rw [iterate_split _ k 8 hk]
  congr 1
  have hb : b.setWidth S = (b &&& lowMask 8 k).setWidth S ^^^ ((b >>> k) &&& lowMask 8 (8 - k)).setWidth S <<< k := by
    apply BitVec.eq_of_getLsbD_eq
    intro i hi
    simp only [BitVec.getLsbD_setWidth, BitVec.getLsbD_xor, BitVec.getLsbD_and, BitVec.getLsbD_shiftLeft,
      BitVec.getLsbD_ushiftRight, getLsbD_lowMask, decide_eq_true hi, Bool.true_and]
    by_cases h8 : i < 8
    · by_cases hik : i < k
      · simp [h8, hik]
      · simp [h8, hik, show i - k < 8 by omega, show i - k < 8 - k by omega, show i - k < S by omega,
          show k + (i - k) = i by omega]
    · have : b.getLsbD i = false := BitVec.getLsbD_of_ge _ _ (by omega)
      by_cases hik : i < k
      · omega
      · simp [this, show k + (i - k) = i by omega]
  rw [hb, ← BitVec.xor_assoc, stepR_iterate_feed]
  intro i hi
  simp [show ¬ i < 8 - k by omega]

/-- In WIDE: the first `k` bits, then the byte shifted up by `k`, are the whole byte. -/
theorem subBits_split_wide (W : Nat) (refin : Bool) (poly r : BitVec S) (b : Byte) (k : Nat) (hk : k ≤ 8)
    (hW : W ≤ S) (hW8 : 8 ≤ W) (h : regime W refin = .wide) :
    subBits W refin poly (subBits W refin poly r b k) (b <<< k) (8 - k) = bitByte W refin poly r b := by
  unfold bitByte subBits keepBits foldBits
  rw [h]
  simp only []
  rw [iterate_split _ k 8 hk]
  congr 1
  have hb : b.setWidth S <<< (W - 8) =
      (b &&& topMask k).setWidth S <<< (W - 8) ^^^ (b &&& lowMask 8 (8 - k)).setWidth S <<< (W - 8) := by
    apply BitVec.eq_of_getLsbD_eq
    intro i hi
    simp only [BitVec.getLsbD_setWidth, BitVec.getLsbD_xor, BitVec.getLsbD_and, BitVec.getLsbD_shiftLeft,
      getLsbD_topMask, getLsbD_lowMask, decide_eq_true hi, Bool.true_and]
    by_cases h1 : i < W - 8
    · simp [h1]
    · by_cases h2 : i - (W - 8) < 8 - k
      · simp [h1, h2, show i - (W - 8) < 8 by omega, show ¬ 8 ≤ i - (W - 8) + k by omega]
      · by_cases h3 : i - (W - 8) < 8
        · simp [h1, h2, h3, show 8 ≤ i - (W - 8) + k by omega]
        · have : b.getLsbD (i - (W - 8)) = false := BitVec.getLsbD_of_ge _ _ (by omega)
          simp [this]
  rw [hb, ← BitVec.xor_assoc, stepL_iterate_feed _ _ ((b &&& lowMask 8 (8 - k)).setWidth S <<< (W - 8)) _ _ (by omega)]
  · congr 1
    apply BitVec.eq_of_getLsbD_eq
    intro i hi
    simp only [BitVec.getLsbD_setWidth, BitVec.getLsbD_and, BitVec.getLsbD_shiftLeft, getLsbD_topMask, getLsbD_lowMask,
      decide_eq_true hi, Bool.true_and]
    by_cases h1 : i < W - 8 + k
    · by_cases h2 : i < k
      · by_cases h3 : i < W - 8
        · simp [h2, h3]
        · simp [h2, h3, show i - (W - 8) < k by omega]
      · by_cases h3 : i < W - 8
        · simp [h2, h3, show i - k < W - 8 by omega]
        · simp [h2, h3, show i - (W - 8) < k by omega, show i - k < W - 8 by omega]
    · simp only [show i - (W - 8) - k = i - k - (W - 8) by omega, decide_eq_false (show ¬ i < W - 8 by omega),
        decide_eq_false (show ¬ i < k by omega), decide_eq_false (show ¬ i - k < W - 8 by omega),
        decide_eq_true (show i - k < S by omega), decide_eq_true (show i - (W - 8) < S by omega),
        decide_eq_true (show i - k - (W - 8) < S by omega), decide_eq_false (show ¬ i - (W - 8) < k by omega),
        Bool.true_and, Bool.not_false]
      by_cases h4 : i - (W - 8) < 8
      · simp [h4, show i - k - (W - 8) < 8 - k by omega, show i - k - (W - 8) < 8 by omega,
          show 8 ≤ i - (W - 8) + (8 - k) by omega]
      · simp [h4, show ¬ i - k - (W - 8) < 8 - k by omega]
  · intro j hj
    simp only [BitVec.getLsbD_setWidth, BitVec.getLsbD_and, BitVec.getLsbD_shiftLeft, getLsbD_lowMask]
    simp [show ¬ W - 1 - j - (W - 8) < 8 - k by omega]

theorem shiftRight_shiftLeft_of_low_zero (x : BitVec S) (m : Nat) (hx : ∀ i, i < m → x.getLsbD i = false) :
    (x >>> m) <<< m = x := by
  apply BitVec.eq_of_getLsbD_eq
  intro i hi
  by_cases h : i < m
  · simp [h, hx i h]
  · simp [h, hi, show m + (i - m) = i by omega]

/-- In NARROW: the first `k` bits, then the byte shifted up by `k`, are the whole byte. -/
theorem subBits_split_narrow (W : Nat) (refin : Bool) (poly r : BitVec S) (b : Byte) (k : Nat) (hk : k ≤ 8)
    (h : regime W refin = .narrow) :
    subBits W refin poly (subBits W refin poly r b k) (b <<< k) (8 - k) = bitByte W refin poly r b := by
  unfold bitByte subBits keepBits foldBits
  rw [h]
  simp only []
  rw [shiftRight_shiftLeft_of_low_zero _ (sh W)
    (narrow_low_zero W poly r _ k fun j hj => by simp [show ¬ 8 ≤ j + k by omega])]
  congr 1
  rw [iterate_split _ k 8 hk]
  congr 1
  have hb : b.setWidth S = (b &&& topMask k).setWidth S ^^^ (b &&& lowMask 8 (8 - k)).setWidth S := by
    apply BitVec.eq_of_getLsbD_eq
    intro i hi
    simp only [BitVec.getLsbD_setWidth, BitVec.getLsbD_xor, BitVec.getLsbD_and, getLsbD_topMask, getLsbD_lowMask,
      decide_eq_true hi, Bool.true_and]
    by_cases h8 : i < 8
    · by_cases h2 : i < 8 - k
      · simp [h8, h2, show ¬ 8 ≤ i + k by omega]
      · simp [h8, h2, show 8 ≤ i + k by omega]
    · rw [BitVec.getLsbD_of_ge b i (by omega)]
      simp
  rw [hb, ← BitVec.xor_assoc, stepL_iterate_feed _ _ ((b &&& lowMask 8 (8 - k)).setWidth S) _ _ (by omega)]
  · congr 1
    apply BitVec.eq_of_getLsbD_eq
    intro i hi
    simp only [BitVec.getLsbD_setWidth, BitVec.getLsbD_and, BitVec.getLsbD_shiftLeft, getLsbD_topMask, getLsbD_lowMask,
      decide_eq_true hi, Bool.true_and]
    by_cases h1 : i < k
    · simp [h1]
    · by_cases h8 : i < 8
      · simp [h1, h8, show i - k < S by omega, show i - k < 8 by omega, show i - k < 8 - k by omega,
          show 8 ≤ i + (8 - k) by omega]
      · simp [h8, show ¬ i - k < 8 - k by omega]
  · intro j hj
    simp [show ¬ 7 - j < 8 - k by omega]

end Sys2Proof.Machine
end

