-- ==== Sys2Proof/Laws/Serial.lean ====
section
/-! SUPPORT. The engine against the bit-serial CRC register of 46_host_api.md R176, one message bit at a time. -/

namespace Sys2Proof.Machine

open Sys2Proof

variable {S : Nat}

theorem getLsbD_messageBit (refin : Bool) (b : Byte) (n i : Nat) (hi : i < n) :
    (messageBits refin b n)[i]? = some (if refin then b.getLsbD i else b.getLsbD (7 - i)) := by
  simp [messageBits, hi]

/-- The bits of a byte, the first one split off, REFIN = 1. -/
theorem messageBits_succ_reflected (b : Byte) (n : Nat) :
    messageBits true b (n + 1) = b.getLsbD 0 :: messageBits true (b >>> 1) n := by
  simp [messageBits, List.range_succ_eq_map, Function.comp_def, Nat.add_comm]

/-- The bits of a byte, the first one split off, REFIN = 0. -/
theorem messageBits_succ_direct (b : Byte) (n : Nat) (hn : n ≤ 7) :
    messageBits false b (n + 1) = b.getLsbD 7 :: messageBits false (b <<< 1) n := by
  simp only [messageBits, List.range_succ_eq_map, List.map_cons, List.map_map, Bool.false_eq_true, if_false]
  congr 1
  apply List.map_congr_left
  intro i hi
  have hi' : i < n := by simpa using hi
  simp only [Function.comp_def, BitVec.getLsbD_shiftLeft]
  simp [show 7 - i < 8 by omega, show ¬ 7 - i < 1 by omega, show 7 - (i + 1) = 7 - i - 1 by omega]

/-- REFLECTED: one right step of a remainder with its pending bits folded in is one serial step, and the pending bits
move down by one. -/
theorem stepR_fold_bit (q r : BitVec S) (b : Byte) :
    stepR q (r ^^^ b.setWidth S) =
      (if r.getLsbD 0 ^^ (b.setWidth S).getLsbD 0 then (r >>> 1) ^^^ q else r >>> 1) ^^^ (b.setWidth S) >>> 1 := by
  rw [stepR_eq, BitVec.getLsbD_xor, BitVec.ushiftRight_xor_distrib]
  split
  · rw [BitVec.xor_assoc, BitVec.xor_assoc, BitVec.xor_comm q]
  · simp

/-- REFLECTED: `k` steps over the `k` pending low bits of `b` are the serial register over those bits. -/
theorem foldBits_reflected_serial (W : Nat) (poly r : BitVec S) (b : Byte) (k : Nat) (hW1 : 1 ≤ W) (hW : W ≤ S)
    (hS : 8 ≤ S) (hk : k ≤ 8) (hb : b.toNat < 2 ^ k) (hr : r.toNat < 2 ^ W) :
    (foldBits W true poly r b k).toNat < 2 ^ W ∧
      (foldBits W true poly r b k).setWidth W = serialCrc W true poly (r.setWidth W) (messageBits true b k) := by
  refine ⟨foldBits_reflected_lt W true poly r b k hW (by simp [regime]) hb hr, ?_⟩
  unfold foldBits
  rw [show regime W true = .reflected by simp [regime]]
  simp only []
  induction k generalizing r b with
  | zero =>
    have : b = 0#8 := by
      apply BitVec.eq_of_toNat_eq
      simpa using hb
    simp [this, messageBits, serialCrc]
  | succ k ih =>
    rw [Function.iterate_succ_apply, stepR_fold_bit, messageBits_succ_reflected, serialCrc, List.foldl_cons]
    have hq := reflect_lt poly W hW
    generalize hr' : (if r.getLsbD 0 ^^ (b.setWidth S).getLsbD 0 then (r >>> 1) ^^^ reflect poly W else r >>> 1) = r'
    have hlow : ∀ i, W ≤ i → r.getLsbD i = false := (lt_two_pow_iff r W).1 hr
    have hr1 : r'.toNat < 2 ^ W := by
      rw [lt_two_pow_iff]
      intro i hi
      rw [← hr']
      split <;> simp [hlow (1 + i) (by omega), (lt_two_pow_iff _ _).1 hq i hi]
    have hbs : (b.setWidth S) >>> 1 = (b >>> 1).setWidth S := by
      apply BitVec.eq_of_getLsbD_eq
      intro i hi
      simp only [BitVec.getLsbD_ushiftRight, BitVec.getLsbD_setWidth, decide_eq_true hi, Bool.true_and]
      by_cases h : 1 + i < S
      · simp [h]
      · simp [h, BitVec.getLsbD_of_ge b (1 + i) (by omega)]
    have hb1 : (b >>> 1).toNat < 2 ^ k := by
      rw [BitVec.toNat_ushiftRight, Nat.shiftRight_eq_div_pow]
      exact Nat.div_lt_of_lt_mul (by rw [← Nat.pow_succ']; exact hb)
    rw [hbs, ih r' (b >>> 1) (by omega) hb1 hr1, serialCrc]
    congr 1
    rw [← hr']
    have h0 : (b.setWidth S).getLsbD 0 = b.getLsbD 0 := by simp [show 0 < S by omega]
    have h1 : (r.setWidth W).getLsbD 0 = r.getLsbD 0 := by simp [show 0 < W by omega]
    have hsh : (r >>> 1).setWidth W = (r.setWidth W) >>> 1 := by
      apply BitVec.eq_of_getLsbD_eq
      intro i hi
      simp only [BitVec.getLsbD_ushiftRight, BitVec.getLsbD_setWidth, decide_eq_true hi, Bool.true_and]
      by_cases h : 1 + i < W
      · simp [h]
      · simp [h, hlow (1 + i) (by omega)]
    rw [h0]
    simp only [serialStep, h1, if_true]
    split
    · rw [BitVec.setWidth_xor, hsh]
    · rw [hsh]

/-- One bit through a left-shifting register of `m` bits that tests its top bit. -/
def serialLeft {m : Nat} (p c : BitVec m) (x : Bool) : BitVec m :=
  if c.getLsbD (m - 1) ^^ x then (c <<< 1) ^^^ p else c <<< 1

theorem getLsbD_serialLeft {m : Nat} (p c : BitVec m) (x : Bool) (i : Nat) (hi : i < m) :
    (serialLeft p c x).getLsbD i =
      ((decide (0 < i) && c.getLsbD (i - 1)) ^^ ((c.getLsbD (m - 1) ^^ x) && p.getLsbD i)) := by
  have h : serialLeft p c x = (c <<< 1) ^^^ (if c.getLsbD (m - 1) ^^ x then p else 0#m) := by
    unfold serialLeft; split <;> simp
  have hd : (!decide (i < 1)) = decide (0 < i) := by
    by_cases h : i = 0
    · simp [h]
    · simp [h, show 0 < i by omega]
  rw [h, BitVec.getLsbD_xor, BitVec.getLsbD_shiftLeft, hd, decide_eq_true hi, Bool.true_and]
  cases c.getLsbD (m - 1) ^^ x <;> simp

/-- Left steps over a byte folded in at the top of an `m`-bit register are the register fed bit by bit, when the byte
has no bits but its first `k`. -/
theorem stepL_iterate_serial {m : Nat} (p c : BitVec m) (b : Byte) (k : Nat) (hm : 8 ≤ m) (hk : k ≤ 8)
    (hb : ∀ j, j + k < 8 → b.getLsbD j = false) :
    (stepL p (m - 1))^[k] (c ^^^ b.setWidth m <<< (m - 8)) = (messageBits false b k).foldl (serialLeft p) c := by
  induction k generalizing c b with
  | zero =>
    have : b = 0#8 := BitVec.eq_of_getLsbD_eq fun j hj => by rw [hb j (by omega)]; simp
    simp [this, messageBits]
  | succ k ih =>
    rw [Function.iterate_succ_apply, messageBits_succ_direct b k (by omega), List.foldl_cons]
    have hstep : stepL p (m - 1) (c ^^^ b.setWidth m <<< (m - 8)) =
        serialLeft p c (b.getLsbD 7) ^^^ (b <<< 1).setWidth m <<< (m - 8) := by
      apply BitVec.eq_of_getLsbD_eq
      intro i hi
      have htop : (b.setWidth m <<< (m - 8)).getLsbD (m - 1) = b.getLsbD 7 := by
        simp [show m - 1 < m by omega, show ¬ m - 1 < m - 8 by omega, show m - 1 - (m - 8) = 7 by omega]
      rw [getLsbD_stepL, BitVec.getLsbD_xor, BitVec.getLsbD_xor, BitVec.getLsbD_xor, htop,
        getLsbD_serialLeft _ _ _ _ hi]
      have hB : (decide (0 < i) && (b.setWidth m <<< (m - 8)).getLsbD (i - 1)) =
          ((b <<< 1).setWidth m <<< (m - 8)).getLsbD i := by
        simp only [BitVec.getLsbD_shiftLeft, BitVec.getLsbD_setWidth, decide_eq_true hi, Bool.true_and]
        by_cases h1 : i ≤ m - 8
        · by_cases h2 : i < m - 8
          · simp [h2, show i - 1 < m - 8 by omega]
          · simp [show i = m - 8 by omega]
            intro h0 _ _
            omega
        · by_cases h3 : i - (m - 8) < 8
          · simp [show 0 < i by omega, show i - 1 < m by omega, show ¬ i - 1 < m - 8 by omega,
              show ¬ i < m - 8 by omega, show i - (m - 8) < m by omega, h3,
              show ¬ i - (m - 8) < 1 by omega, show i - 1 - (m - 8) = i - (m - 8) - 1 by omega]
            omega
          · omega
      rw [← hB]
      simp only [decide_eq_true hi, Bool.true_and]
      generalize (b.setWidth m <<< (m - 8)).getLsbD (i - 1) = y
      cases decide (0 < i) <;> cases c.getLsbD (i - 1) <;> cases y <;> cases c.getLsbD (m - 1) <;>
        cases b.getLsbD 7 <;> cases p.getLsbD i <;> rfl
    rw [hstep, ih _ (b <<< 1) (by omega)]
    intro j hj
    rcases j with _ | j
    · simp
    · simp [hb j (by omega)]

/-- A `W`-bit register standing at the top of a byte, as NARROW holds it. -/
def raiseNarrow (W : Nat) (c : BitVec W) : Byte := c.setWidth 8 <<< sh W

theorem getLsbD_raiseNarrow (W : Nat) (c : BitVec W) (i : Nat) :
    (raiseNarrow W c).getLsbD i = (decide (i < 8) && decide (sh W ≤ i) && c.getLsbD (i - sh W)) := by
  unfold raiseNarrow
  rw [BitVec.getLsbD_shiftLeft, BitVec.getLsbD_setWidth]
  by_cases h : i < 8
  · by_cases h2 : sh W ≤ i
    · simp [h, h2, show ¬ i < sh W by omega, show i - sh W < 8 by omega]
    · simp [h2, show i < sh W by omega]
  · simp [h]

/-- NARROW's byte-aligned register and the `W`-bit register take the same step. -/
theorem raiseNarrow_serialStep (W : Nat) (poly : BitVec S) (c : BitVec W) (x : Bool) (hW1 : 1 ≤ W) (hW : W < 8) :
    raiseNarrow W (serialStep W false poly c x) =
      serialLeft (raiseNarrow W (poly.setWidth W)) (raiseNarrow W c) x := by
  have htop : (raiseNarrow W c).getLsbD (8 - 1) = c.getLsbD (W - 1) := by
    rw [getLsbD_raiseNarrow W]
    simp [show sh W ≤ 7 by unfold sh; omega, show 7 - sh W = W - 1 by unfold sh; omega]
  have hsh : raiseNarrow W (c <<< 1) = raiseNarrow W c <<< 1 := by
    apply BitVec.eq_of_getLsbD_eq
    intro i hi
    rw [BitVec.getLsbD_shiftLeft, getLsbD_raiseNarrow W, getLsbD_raiseNarrow W, BitVec.getLsbD_shiftLeft]
    by_cases h : sh W ≤ i
    · by_cases h2 : i = sh W
      · by_cases h3 : i < 1
        · simp [h2 ▸ h3, h2]
        · simp [h2, show ¬ sh W ≤ sh W - 1 by omega]
      · simp [hi, h, show ¬ i < 1 by omega, show i - 1 < 8 by omega, show sh W ≤ i - 1 by omega,
          show i - sh W < W by unfold sh at *; omega, show ¬ i - sh W < 1 by omega,
          show i - sh W - 1 = i - 1 - sh W by omega, show i - 1 - sh W < W by unfold sh at *; omega]
    · simp [h, show ¬ sh W ≤ i - 1 by omega]
  have hxor (a b : BitVec W) : raiseNarrow W (a ^^^ b) = raiseNarrow W a ^^^ raiseNarrow W b := by
    simp [raiseNarrow, BitVec.setWidth_xor, BitVec.shiftLeft_xor_distrib]
  unfold serialStep serialLeft
  rw [htop]
  simp only [Bool.false_eq_true, if_false]
  split
  · rw [hxor, hsh]
  · rw [hsh]

/-- WIDE and NARROW: `k` steps over a byte with no bits but its first `k` are the serial register over those bits, on
bits `W-1:0` (43_subbyte.md R144). -/
theorem foldBits_direct_serial (W : Nat) (poly r : BitVec S) (b : Byte) (k : Nat) (hW1 : 1 ≤ W) (hW : W ≤ S)
    (hS : 8 ≤ S) (hk : k ≤ 8) (hb : ∀ j, j + k < 8 → b.getLsbD j = false) :
    (foldBits W false poly r b k).setWidth W = serialCrc W false poly (r.setWidth W) (messageBits false b k) := by
  rcases regime_cases W false with ⟨h, -⟩ | ⟨-, h8, h⟩ | ⟨-, h8, h⟩
  · cases h
  · unfold foldBits
    rw [h]
    simp only []
    rw [stepL_iterate_setWidth _ _ _ _ hW (by omega), BitVec.setWidth_xor,
      show (b.setWidth S <<< (W - 8)).setWidth W = b.setWidth W <<< (W - 8) from ?_, stepL_iterate_serial _ _ _ _ h8 hk hb]
    · rfl
    · apply BitVec.eq_of_getLsbD_eq
      intro i hi
      simp [hi, show i < S by omega]
  · have hreg : ∀ c : BitVec S, (c <<< sh W).setWidth 8 = raiseNarrow W (c.setWidth W) := by
      intro c
      apply BitVec.eq_of_getLsbD_eq
      intro i hi
      rw [getLsbD_raiseNarrow W]
      simp only [BitVec.getLsbD_setWidth, BitVec.getLsbD_shiftLeft, decide_eq_true hi, Bool.true_and,
        decide_eq_true (show i < S by omega)]
      by_cases h2 : sh W ≤ i
      · simp [h2, show ¬ i < sh W by omega, show i - sh W < W by unfold sh at *; omega]
      · simp [h2, show i < sh W by omega]
    have hraise : ∀ (xs : List Bool) (c : BitVec W),
        xs.foldl (serialLeft (raiseNarrow W (poly.setWidth W))) (raiseNarrow W c) =
          raiseNarrow W (serialCrc W false poly c xs) := by
      intro xs
      induction xs with
      | nil => exact fun c => rfl
      | cons x xs ih => exact fun c => by rw [List.foldl_cons, ← raiseNarrow_serialStep W poly c x hW1 h8, ih]; rfl
    have h8w : ((stepL (poly <<< sh W) 7)^[k] (r <<< sh W ^^^ b.setWidth S)).setWidth 8 =
        raiseNarrow W (serialCrc W false poly (r.setWidth W) (messageBits false b k)) := by
      rw [stepL_iterate_setWidth _ _ _ _ hS (by omega), BitVec.setWidth_xor, hreg, hreg,
        show (b.setWidth S).setWidth 8 = b.setWidth 8 <<< (8 - 8) from ?_,
        stepL_iterate_serial (m := 8) _ _ _ _ (by omega) hk hb, hraise]
      apply BitVec.eq_of_getLsbD_eq
      intro i hi
      simp [hi, show i < S by omega]
    unfold foldBits
    rw [h]
    simp only []
    apply BitVec.eq_of_getLsbD_eq
    intro i hi
    have := congrArg (fun v => v.getLsbD (sh W + i)) h8w
    simp only [getLsbD_raiseNarrow W, BitVec.getLsbD_setWidth,
      decide_eq_true (show sh W + i < 8 by unfold sh; omega), Bool.true_and,
      decide_eq_true (show sh W ≤ sh W + i by omega), show sh W + i - sh W = i by omega] at this
    simp [hi, this]

end Sys2Proof.Machine
end

