-- ==== Sys2Proof/Tests/Slice0.lean ====
section
/-! SUPPORT. The author's own tests. Expected values come from 95_test_vectors.md (the section stands in each comment),
words from 30_encoding.md. The second half shows, for every statement with hypotheses, a state and operands that meet
them. -/

namespace Sys2Proof.Tests

open Sys2Proof Sys2Proof.Machine

/-! ### Small machines -/

def c8 : Instance := ⟨8, 8, by decide, by decide, by decide⟩
def c16 : Instance := ⟨16, 16, by decide, by decide, by decide⟩
def c32 : Instance := ⟨32, 32, by decide, by decide, by decide⟩
def c64 : Instance := ⟨64, 64, by decide, by decide, by decide⟩
def c4 : Instance := ⟨4, 8, by decide, by decide, by decide⟩
def c12 : Instance := ⟨12, 16, by decide, by decide, by decide⟩

/-- A machine after a parameter set and a remainder, no BUILD. -/
def idle (c : Instance) (cfg : BitVec 2) (poly rem : BitVec c.S) : State :=
  (State.resetOf c).withBlock { Block.reset c.S with cfg := cfg, poly := poly, rem := rem }

/-- The same with its table built. -/
def ready (c : Instance) (cfg : BitVec 2) (poly rem : BitVec c.S) : State :=
  (State.resetOf c).withBlock { Block.reset c.S with
    cfg := cfg, poly := poly, rem := rem, tvalid := true, table := buildTable c.W (cfg.getLsbD 0) poly }

def ofNext (f : State → Nat) : Host.Outcome State Fault Refusal → Option Nat
  | .next t => some (f t)
  | .fault _ => none
  | .refused _ => none

def remOf (s : State) : Nat := s.block.rem.toNat
def resultOf (s : State) : Nat := s.block.result.toNat
def statusOf (s : State) : Nat := s.block.statusWord.toNat

/-! ### Well-formedness, one ill-formed term for each check -/

theorem test_wf_refuses_subb_of_no_bits : (Instr.subb 0x70 0).wf = false := by decide
theorem test_wf_refuses_fin_reserved_mode : (Instr.fin .reserved).wf = false := by decide
theorem test_wf_refuses_unfin_reserved_mode : (Instr.unfin .reserved).wf = false := by decide
theorem test_wf_refuses_refl_past_the_word : (Instr.refl 65).wf = false := by decide
theorem test_wf_admits_the_bounds :
    (Instr.subb 0 1).wf = true ∧ (Instr.subb 0 7).wf = true ∧ (Instr.refl 0).wf = true ∧ (Instr.refl 64).wf = true := by
  decide
theorem test_build_refuses_illegal_sizes :
    Instance.build? 0 8 = none ∧ Instance.build? 9 8 = none ∧ Instance.build? 8 24 = none ∧
      Instance.build? 65 64 = none := by decide

/-! ### Words written out bit by bit from 30_encoding.md R71: RB 30:24, NB 18:16, DATA 15:8, RM 5:4, OP 3:0 -/

theorem test_decode_nop : decode 0b0000 = .ok .nop := by decide
theorem test_decode_seed : decode 0b0001 = .ok .seed := by decide
theorem test_decode_bitb : decode 0b00110001_0000_0010 = .ok (.bitb 0x31) := by decide
theorem test_decode_tabb : decode 0b10000000_0000_0011 = .ok (.tabb 0x80) := by decide
theorem test_decode_subb : decode 0b101_00000111_0000_0100 = .ok (.subb 0x07 5) := by decide
theorem test_decode_fin : decode 0b0001_0101 = .ok (.fin .refl) := by decide
theorem test_decode_unfin : decode 0b0010_0110 = .ok (.unfin .auto) := by decide
theorem test_decode_refl : decode 0b1000000_00000000_00000000_0000_0111 = .ok (.refl 64) := by decide
theorem test_decode_build : decode 0b1000 = .ok .build := by decide
theorem test_decode_trd : decode 0b00000001_0000_1001 = .ok (.trd 0x01) := by decide
/-- 95_test_vectors.md section 2.8: the priorities that the word decides. -/
theorem test_decode_priorities :
    decode 0xFFFFFFFFFFFFFFFF = .error .eOp ∧ decode 0x00F80004 = .error .eRsv ∧ decode 0x80000007 = .error .eRsv ∧
      decode 0x0032 = .ok (.bitb 0) := by decide
theorem test_encode_matches_the_assembler :
    encode (.subb 0x70 4) = 0x47004 ∧ encode (.refl 32) = 0x20000007 ∧ encode (.trd 0xFF) = 0xFF09 := by decide

/-! ### One step of each command -/

section Steps

set_option maxRecDepth 10000

/-- Section 2.6. -/
theorem test_nop_runs_with_unused_data :
    ofNext statusOf (step ((idle c8 0 7 0).issue [.write 8 0xFF00])) = some 0 := by decide
theorem test_nop_reserved_bit :
    ofNext statusOf (step ((idle c8 0 7 0).issue [.write 8 0x10000000000])) = some 0x204 := by decide
theorem test_seed :
    ofNext remOf (exec .seed ((State.resetOf c32).withBlock { Block.reset 32 with init := 0xFFFFFFFF#32 })) =
      some 0xFFFFFFFF := by decide
/-- Section 2.2: K32, and the WIDE set whose clean seed gives upper bits. -/
theorem test_bitb_reflected : ofNext remOf (exec (.bitb 0x31) (idle c32 3 0x04C11DB7#32 0xFFFFFFFF#32)) = some 0x7C231048 := by
  decide
theorem test_bitb_upper_bits : ofNext remOf (exec (.bitb 0xC2) (idle c12 0 0x80F#16 0x0F9C#16)) = some 0xD5AB := by
  decide
/-- Section 2.3.3: where TABB and BITB differ above `W`, and 2.3.4: no table. -/
theorem test_tabb_upper_bits : ofNext remOf (exec (.tabb 0xC2) (ready c12 0 0x80F#16 0x0F9C#16)) = some 0x95AB := by
  decide
theorem test_tabb_needs_the_table : ofNext statusOf (exec (.tabb 0x31) (idle c8 0 7 0)) = some 0x308 := by decide
/-- Section 2.4. -/
theorem test_subb_reflected : ofNext remOf (exec (.subb 0xB1 7) (idle c16 3 0x8005#16 0)) = some 0xE981 := by
  decide
theorem test_subb_narrow : ofNext remOf (exec (.subb 0xAF 4) (idle c4 0 3 0xD#8)) = some 0x9 := by decide
/-- Section 2.5. -/
theorem test_fin_auto_reflects_when_flags_differ :
    ofNext resultOf (exec (.fin .auto) (idle c16 1 0x8005#16 0x1234#16)) = some 0x2C48 := by decide
theorem test_fin_auto_agreeing_flags :
    ofNext resultOf (exec (.fin .auto)
      ((State.resetOf c32).withBlock { Block.reset 32 with cfg := 3, xorout := 0xFFFFFFFF#32, rem := 0x340BC6D9#32 })) =
      some 0xCBF43926 := by decide
theorem test_unfin_ignores_high_operand :
    ofNext remOf (exec (.unfin .auto)
      ((State.resetOf c16).withBlock { Block.reset 16 with cfg := 3, opnd := 0xFFFFA455 })) = some 0xA455 := by
  decide
theorem test_unfin_reflects_over_w :
    ofNext remOf (exec (.unfin .auto)
      ((State.resetOf c4).withBlock { Block.reset 8 with cfg := 1, poly := 3#8, xorout := 0xF#8, opnd := 6 })) =
      some 9 := by decide
/-- Section 2.1. -/
theorem test_refl_32 :
    ofNext resultOf (exec (.refl 32) ((State.resetOf c8).withBlock { Block.reset 8 with opnd := 0x04C11DB7 })) =
      some 0xEDB88320 := by decide
theorem test_refl_ignores_high_bits :
    ofNext resultOf (exec (.refl 8) ((State.resetOf c8).withBlock { Block.reset 8 with opnd := 0xFF01 })) = some 0x80 := by
  decide
/-- Section 2.3.1, and 2.7 (`RD STATUS` after BUILD). -/
theorem test_build_entry :
    ofNext (fun t => (readTable t.block.table 0x01).toNat) (exec .build (idle c32 3 0x04C11DB7#32 0)) =
      some 0x77073096 := by decide
theorem test_build_sets_tvalid : ofNext statusOf (exec .build (idle c8 0 7 0)) = some 1 := by decide
theorem test_trd_narrow_entry_is_shifted : ofNext resultOf (exec (.trd 0x12) (ready c4 0 3 0)) = some 0x30 := by
  decide
theorem test_trd_needs_the_table : ofNext statusOf (exec (.trd 0x80) (idle c32 3 0x04C11DB7#32 0)) = some 0x308 := by
  decide

end Steps

/-! ### The port -/

/-- Section 2.7. -/
theorem test_read_id : (regRead 0 (State.resetOf c12)).toNat = 0x100C ∧ (regRead 0 (State.resetOf c64)).toNat = 0x4040 := by
  decide
theorem test_write_poly_truncates :
    ofNext (fun t => (regRead 2 t).toNat) (step ((State.resetOf c16).issue [.write 2 0x100008005])) = some 0x8005 := by
  decide
theorem test_write_cfg_keeps_two_bits :
    ofNext (fun t => (regRead 1 t).toNat) (step ((State.resetOf c16).issue [.write 1 0xFF])) = some 3 := by decide
/-- Section 2.3.4: a CFG write clears TVALID even with the same value, an INIT write keeps it. -/
theorem test_write_cfg_clears_tvalid :
    ofNext statusOf (step ((ready c8 0 7 0).issue [.write 1 0])) = some 0 ∧
      ofNext statusOf (step ((ready c8 0 7 0).issue [.write 3 0])) = some 1 := by decide
theorem test_fetch_word_runs_first :
    ofNext remOf (step ((idle c8 0 7 0).withFetchWord 64 0x3102)) = some 0x97 := by decide

/-! ### Witnesses: for every statement with hypotheses, a state and operands that meet them -/

theorem ready_inv (c : Instance) (cfg : BitVec 2) (poly rem : BitVec c.S) : (ready c cfg poly rem).Inv :=
  ⟨fun _ => rfl, show (0#4).toNat ≤ 5 by decide, ⟨fun _ => rfl, fun _ => rfl⟩⟩

theorem ready_tvalid (c : Instance) (cfg : BitVec 2) (poly rem : BitVec c.S) :
    (ready c cfg poly rem).block.tvalid = true := rfl

/-- A state with an error pending, the invariant held. -/
def failed : State :=
  (State.resetOf c8).withBlock { Block.reset 8 with eOp := true, eRsv := true, cause := 2 }

theorem witness_OnlyLegalInstancesAreBuilt :
    (∃ c, Instance.build? 1 8 = some c) ∧ (∃ c, Instance.build? 64 64 = some c) ∧ recommendedStore 1 = some 8 ∧
      recommendedStore 64 = some 64 ∧ recommendedStore 9 = some 16 :=
  ⟨⟨_, rfl⟩, ⟨_, rfl⟩, by decide, by decide, by decide⟩

theorem witness_StepKeepsInvariant :
    ((ready c8 0 7 0).issue [.write 8 0x3103]).Inv ∧
      (∃ t, step ((ready c8 0 7 0).issue [.write 8 0x3103]) = .next t ∧ t.pending = []) ∧
      (failed.issue [.write 9 2]).Inv ∧ ∃ t, step (failed.issue [.write 9 2]) = .next t ∧ t.block.cause = 2 ∧ t.block.eRsv = true :=
  ⟨ready_inv _ _ _ _, ⟨_, rfl, rfl⟩, ⟨fun h => absurd h (by decide), by decide, by decide⟩, ⟨_, rfl, by decide, by decide⟩⟩

theorem witness_HostProgramsEnd :
    0 ≤ ((State.resetOf c8).issue [.read 0, .reset]).pending.length ∧
      2 ≤ ((State.resetOf c8).issue [.read 0, .reset]).pending.length := by decide

theorem witness_HiddenTableIsNeverObserved :
    (State.resetOf c8).block.SameButHiddenTable { Block.reset 8 with table := Vector.replicate 256 0x5A#8 } ∧
      (ready c8 0 7 0).block.SameButHiddenTable (ready c8 0 7 0).block :=
  ⟨⟨rfl, fun h => absurd h (by decide)⟩, ⟨rfl, fun _ => rfl⟩⟩

theorem witness_CmdWriteRunsTheCommand : decode 0xFF09 = .ok (.trd 0xFF) := by decide

theorem witness_FetchWordRunsNext :
    decodeTableWord 64 0x47004 = some (.subb 0x70 4) ∧ decodeTableWord 8 0x108 = some .build ∧
      decodeTableWord 65 0 = none := by decide

theorem witness_NarrowRegistersTruncate : 1 ≤ (1 : BitVec 4).toNat ∧ (5 : BitVec 4).toNat ≤ 5 := by decide

theorem witness_ReservedAndReadOnlyIndices : 10 ≤ (10 : BitVec 4).toNat ∧ 10 ≤ (15 : BitVec 4).toNat := by decide

/-- STATUS written so that one error stays, and so that none does. -/
theorem witness_StatusWriteClears :
    (failed.block.writeStatus 0x2).eRsv = true ∧ (failed.block.writeStatus 0x2).cause = 2 ∧
      (failed.block.writeStatus 0x6).noError = true ∧ (failed.block.writeStatus 0x6).cause = 0 := by decide

theorem witness_OnlyTheseEventsChangeTvalid :
    (∃ t, step ((State.resetOf c8).issue [.write 8 8]) = .next t ∧ decode 8 = .ok .build) ∧
      (∃ t, step ((ready c8 0 7 0).issue [.reset]) = .next t) ∧
      (∃ t, step ((ready c8 0 7 0).issue [.write 2 7]) = .next t) ∧
      (∃ t, step ((ready c8 0 7 0).issue [.write 8 1]) = .next t ∧ decode 1 ≠ .ok .build) :=
  ⟨⟨_, rfl, by decide⟩, ⟨_, rfl⟩, ⟨_, rfl⟩, ⟨_, rfl, by decide⟩⟩

/-- Each clause's change happens. -/
theorem witness_OnlyTheseEventsChangeRegisters :
    ofNext (fun t => t.block.cfg.toNat) (step ((State.resetOf c8).issue [.write 1 3])) = some 3 ∧
      ofNext (fun t => t.block.poly.toNat) (step ((State.resetOf c8).issue [.write 2 7])) = some 7 ∧
      ofNext (fun t => t.block.init.toNat) (step ((State.resetOf c8).issue [.write 3 7])) = some 7 ∧
      ofNext (fun t => t.block.xorout.toNat) (step ((State.resetOf c8).issue [.write 4 7])) = some 7 ∧
      ofNext (fun t => t.block.opnd.toNat) (step ((State.resetOf c8).issue [.write 6 7])) = some 7 ∧
      ofNext remOf (step ((idle c8 0 7 0).issue [.write 8 0x0102])) = some 7 ∧
      ofNext resultOf (step ((ready c8 0 7 0).issue [.write 8 0x0109])) = some 7 ∧
      ofNext (fun t => t.replies.length) (step ((idle c8 0 7 0).issue [.read 0])) = some 1 := by
  set_option maxRecDepth 10000 in decide

theorem witness_the_table_changes :
    ofNext (fun t => (readTable t.block.table 1).toNat) (step ((idle c8 0 7 0).issue [.write 8 8])) = some 7 := by
  set_option maxRecDepth 10000 in decide

theorem witness_DecodeOfEncode :
    (Instr.subb 0xFF 7).wf = true ∧ (Instr.fin .auto).wf = true ∧ (Instr.unfin .none).wf = true ∧
      (Instr.refl 64).wf = true ∧ (Instr.trd 0).wf = true := by decide

theorem witness_UnusedFieldsAreIgnored :
    (0x7F07FF30 : Word) &&& (rsvMask ||| Instr.nop.usedBits) = 0 ∧
      (0x30 : Word) &&& (rsvMask ||| (Instr.bitb 0).usedBits) = 0 ∧
      (0x40 : Word) &&& 0xF = 0 ∧ (0x40 : Word) &&& rsvMask ≠ 0 ∧ (0x8000000000000000 : Word) &&& rsvMask ≠ 0 := by
  decide

theorem witness_DecodedWordsMatchTheTable : decode 0x7F07FF38 = .ok .build := by decide

theorem witness_RejectedCommandChangesTwoThings :
    Rejects 0xA (State.resetOf c8) .eOp ∧ Rejects 0xC3 (State.resetOf c8) .eRsv ∧
      Rejects 0x3103 (State.resetOf c8) .eTab ∧ Rejects 0x4 (State.resetOf c8) .eNb ∧
      Rejects 0x41000007 (State.resetOf c8) .eRb :=
  ⟨.inl (by decide), .inl (by decide), .inr ⟨rfl, rfl, 0x31, .inl (by decide)⟩, .inl (by decide), .inl (by decide)⟩

theorem witness_ErrorBitsAreSticky :
    (∀ e, ¬ Rejects 0x1 failed e) ∧ (∃ t, step (failed.issue [.write 8 0x1]) = .next t) ∧
      ∃ b, step (failed.issue [.write 8 0x1]) = .next ((failed.issue []).withBlock b) := by
  refine ⟨fun e h => ?_, ⟨_, rfl⟩, ⟨_, rfl⟩⟩
  have hd : decode 0x1 = .ok .seed := by decide
  rcases h with h | ⟨-, -, d, h | h⟩ <;> rw [hd] at h <;> cases h

theorem witness_IllegalFieldsAreRejected : 64 < (65 : BitVec 7).toNat ∧ 64 < (127 : BitVec 7).toNat := by decide

theorem witness_NopChangesNothing :
    (0xFF30 : Word) &&& 0xF = 0 ∧ (0xFF30 : Word) &&& 0xFFFFFFFF80F800C0 = 0 ∧
      (0x40 : Word) &&& 0xFFFFFFFF80F800C0 ≠ 0 := by decide

theorem witness_SubbTakesNbSteps : (1 : BitVec 3) ≠ 0 ∧ (7 : BitVec 3) ≠ 0 := by decide

theorem witness_TabbTakesOneLookup_and_TrdReadsOneEntry :
    (ready c8 0 7 0).block.tvalid = true ∧ (idle c8 0 7 0).block.tvalid = false := ⟨rfl, rfl⟩

theorem witness_BuildWritesEveryEntry :
    (idle c8 0 7 0).block.poly = (ready c8 0 7 5).block.poly ∧
      (idle c8 2 7 0).block.refin = (ready c8 0 7 5).block.refin := ⟨rfl, rfl⟩

theorem witness_FinGivesTheChecksumBits_and_UnfinRecoversTheRemainderBits :
    ReflMode.none ≠ .reserved ∧ ReflMode.auto ≠ .reserved ∧ (0 : Nat) < c8.W ∧ c8.W - 1 < 64 ∧ c8.S - 1 < c8.S := by
  decide

theorem witness_ReflectReversesTheLowBits :
    (0 : BitVec 7).toNat ≤ 64 ∧ (64 : BitVec 7).toNat ≤ 64 ∧ reflect 0x1#8 8 = 0x80#8 ∧ reflect 0xFF#8 0 = 0#8 := by
  decide

theorem witness_FrameOfRemCommands :
    (∃ t, (Instr.tabb 1).wf = true ∧ exec (.tabb 1) (ready c8 0 7 0) = .next t) ∧
      (∃ t, (Instr.subb 1 7).wf = true ∧ exec (.subb 1 7) (idle c8 0 7 0) = .next t) ∧
      ∃ t, (Instr.unfin .refl).wf = true ∧ exec (.unfin .refl) (idle c8 0 7 0) = .next t :=
  ⟨⟨_, rfl, rfl⟩, ⟨_, rfl, rfl⟩, ⟨_, rfl, rfl⟩⟩

theorem witness_FrameOfResultCommandsAndBuild :
    (∃ t, (Instr.trd 1).wf = true ∧ exec (.trd 1) (ready c8 0 7 0) = .next t) ∧
      (∃ t, (Instr.fin .none).wf = true ∧ exec (.fin .none) (idle c8 0 7 0) = .next t) ∧
      (∃ t, (Instr.refl 64).wf = true ∧ exec (.refl 64) (idle c8 0 7 0) = .next t) ∧
      ∃ t, exec .build (idle c8 0 7 0) = .next t :=
  ⟨⟨_, rfl, rfl⟩, ⟨_, rfl, rfl⟩, ⟨_, rfl, rfl⟩, ⟨_, rfl⟩⟩

theorem witness_ReflectLaws : (0 : Nat) ≤ 64 ∧ (64 : Nat) ≤ 64 := by decide

theorem witness_UpperBitsFlow :
    (0xF123#16).toNat % 2 ^ c12.W = (0x0123#16).toNat % 2 ^ c12.W ∧ (0xFFF#16).toNat < 2 ^ c12.W ∧
      c4.W < 8 ∧ c4.S = 8 ∧ (0xF#8).toNat < 2 ^ c4.W := by decide

theorem witness_SplitByteIsWholeByte : (1 : Nat) ≤ 1 ∧ (1 : Nat) ≤ 7 ∧ (7 : Nat) ≤ 7 := by decide

theorem witness_SubbIgnoresTheOtherBits :
    (∀ i, i < (4 : BitVec 3).toNat → (0xA0 : Byte).getLsbD (7 - i) = (0xAF : Byte).getLsbD (7 - i)) ∧
      (∀ i, i < (7 : BitVec 3).toNat → (0x31 : Byte).getLsbD i = (0xB1 : Byte).getLsbD i) ∧
      (idle c4 0 3 0).block.refin = false ∧ (idle c16 3 0x8005 0).block.refin = true := by decide

/-- A valid table in each regime: REFLECTED, WIDE, NARROW. -/
theorem witness_TableLaws_and_EnginesAgree :
    ((ready c16 1 0x8005#16 0).Inv ∧ (ready c16 1 0x8005#16 0).block.refin = true) ∧
      ((ready c8 0 7 0).Inv ∧ 8 ≤ c8.W ∧ c8.S = c8.W) ∧
      ((ready c4 0 3 0).Inv ∧ (ready c4 0 3 0).block.refin = false ∧ c4.W < 8 ∧ c4.S = 8) :=
  ⟨⟨ready_inv _ _ _ _, rfl⟩, ⟨ready_inv _ _ _ _, by decide, rfl⟩, ⟨ready_inv _ _ _ _, rfl, by decide, rfl⟩⟩

theorem witness_FinalizeLaws : (0xFFF#16).toNat < 2 ^ c12.W ∧ (0#16).toNat < 2 ^ c12.W := by decide

theorem witness_EngineComputesTheBitSerialCrc :
    (0xF#8).toNat < 2 ^ c4.W ∧ ∀ p ∈ ([(0x31, 8), (0xE0, 1), (0x70, 7)] : List (Byte × Nat)), 1 ≤ p.2 ∧ p.2 ≤ 8 := by
  decide

theorem witness_NarrowShiftsOncePerCall : c4.W < 8 := by decide

theorem witness_KnownCheckValues :
    (calculate .table [0x31, 0x32, 0x33, 0x34, 0x35, 0x36, 0x37, 0x38, 0x39] 9).isSome = true ∧
      (idle c8 0 0 0).inst.W = 8 ∧ (idle c8 0 0 0).inst.S = 8 ∧ (idle c16 0 0 0).inst.W = 16 ∧
      (idle c16 0 0 0).inst.S = 16 ∧ (idle c32 0 0 0).inst.W = 32 ∧ (idle c32 0 0 0).inst.S = 32 := by decide

theorem witness_CalculateReturnsTheSerialCrc :
    (idle c12 0 0x80F#16 0).block.init.toNat < 2 ^ c12.W ∧ (calculate .bitwise [0x31, 0x32] 2).isSome = true ∧
      (calculate .bitwise [] 0).isSome = true := by decide

theorem witness_ProcedureShapesAgree :
    (ready c12 0 0x80F#16 0).Inv ∧ (ready c12 0 0x80F#16 0).block.tvalid = true ∧
      (calculateBits .bitwise [0x31, 0x70] 12).isSome = true ∧ (calculateBits .table [0x31, 0x70] 12).isSome = true ∧
      (continueBits .bitwise 5 [0x31, 0x70] 16).isSome = true ∧ (continueBits .table 5 [0x31, 0x70] 16).isSome = true :=
  ⟨ready_inv _ _ _ _, rfl, by decide, by decide, by decide, by decide⟩

theorem witness_ContinuationAgrees :
    (ready c12 0 0x80F#16 0).Inv ∧ (ready c12 0 0x80F#16 0).block.tvalid = true ∧
      (ready c12 0 0x80F#16 0).block.init.toNat < 2 ^ c12.W ∧ (ready c12 0 0x80F#16 0).block.xorout.toNat < 2 ^ c12.W ∧
      (calculate .table ([0x31] ++ [0x32]) ([0x31] ++ [0x32] : List Byte).length).isSome = true ∧
      (calculate .table [0x31] ([0x31] : List Byte).length).isSome = true :=
  ⟨ready_inv _ _ _ _, rfl, by decide, by decide, by decide, by decide⟩

/-- Two messages, one of them empty, on a valid table. -/
theorem witness_TableReuse :
    (ready c12 0 0x80F#16 0).Inv ∧ (ready c12 0 0x80F#16 0).block.tvalid = true ∧
      ([[0x31, 0x32], []] : List (List Byte))[1]? = some [] ∧ (calculateEach .table [[0x31, 0x32], []]).length = 8 :=
  ⟨ready_inv _ _ _ _, rfl, by decide, by decide⟩

end Sys2Proof.Tests
end

