-- ==== Sys2Proof/Proofs/Scope.lean ====
section
/-! PROOFS. The legal instances and the recommended storage width (00_scope.md R1, R2). -/

namespace Sys2Proof.Proofs.Scope

open Sys2Proof

/-- The refusal of R2, with R1's bound on `W`. -/
theorem build?_eq_none_iff (W S : Nat) :
    Instance.build? W S = none ↔ ¬ (1 ≤ W ∧ W ≤ S ∧ (S = 8 ∨ S = 16 ∨ S = 32 ∨ S = 64)) :=
  dite_eq_right_iff.trans (by simp only [reduceCtorEq, imp_false])

/-- Every instance is one that `build?` builds: its proof fields are the guard. -/
@[simp] theorem build?_self (c : Instance) : Instance.build? c.W c.S = some c :=
  dif_pos ⟨c.W_pos, c.W_le_S, c.S_legal⟩

theorem sizes_of_build?_eq_some {W S : Nat} {c : Instance} (h : Instance.build? W S = some c) :
    c.W = W ∧ c.S = S := by
  unfold Instance.build? at h
  split at h
  · cases h
    exact ⟨rfl, rfl⟩
  · cases h

theorem width_le_64 (c : Instance) : c.W ≤ 64 :=
  c.W_le_S.trans (Machine.storage_bounds c).2

/-- The recommended width, one branch per legal storage width. -/
theorem recommendedStore_eq (W : Nat) : recommendedStore W =
    if W ≤ 8 then some 8 else if W ≤ 16 then some 16 else if W ≤ 32 then some 32
    else if W ≤ 64 then some 64 else none := by
  split_ifs <;> simp only [recommendedStore, List.find?_cons, List.find?_nil, decide_true, decide_false, *]

/-- Below 65 there is a recommendation, and it is the least legal storage width that holds `W` bits. -/
theorem recommendedStore_least {W : Nat} (hW : W ≤ 64) :
    ∃ r, recommendedStore W = some r ∧ W ≤ r ∧ (r = 8 ∨ r = 16 ∨ r = 32 ∨ r = 64) ∧
      ∀ S, W ≤ S → (S = 8 ∨ S = 16 ∨ S = 32 ∨ S = 64) → r ≤ S := by
  rw [recommendedStore_eq]
  split_ifs with h8 h16 h32
  · exact ⟨8, rfl, h8, by decide, by omega⟩
  · exact ⟨16, rfl, h16, by decide, by omega⟩
  · exact ⟨32, rfl, h32, by decide, by omega⟩
  · exact ⟨64, rfl, hW, by decide, by omega⟩

/-- Settles O1: `build?` tests exactly the proof fields of an instance, and the recommendation is the first of the four
legal widths, in increasing order, that is large enough. -/
theorem onlyLegalInstancesAreBuilt : Obligations.OnlyLegalInstancesAreBuilt :=
  ⟨build?_eq_none_iff, fun _ _ _ => sizes_of_build?_eq_some,
    fun c => ⟨build?_self c, c.W_le_S, width_le_64 c⟩,
    fun _ _ hW => recommendedStore_least hW⟩

end Sys2Proof.Proofs.Scope
end

