-- ==== Sys2Proof/Proofs/State.lean ====
section
/-! PROOFS. The register port at CMD and at the indices without storage, and the sticky error bits (10_state.md R21, R28
to R30, R32). -/

namespace Sys2Proof.Proofs.State

open Sys2Proof Sys2Proof.Machine

/-! ### CMD, the reserved and the read-only indices -/

@[simp] theorem regRead_cmd (s : State) : regRead 8 s = 0 := rfl

/-- Settles O8: the step of a write to CMD is `runCommand` by definition, and a decoded word runs. -/
theorem cmdWriteRunsTheCommand : Obligations.CmdWriteRunsTheCommand := by
  refine ⟨fun s rest w i hdec => ?_, fun s rest => ?_⟩
  · rw [step_command, runCommand_of_ok w _ i hdec]
  · rw [step_issue_cons, hostEvent, regRead_cmd]

theorem portReg_of_ten_le {i : BitVec 4} (hi : 10 ≤ i.toNat) : portReg i = .reserved := by
  revert i; decide

theorem regRead_of_reserved {i : BitVec 4} (hi : portReg i = .reserved) (s : State) : regRead i s = 0 := by
  simp only [regRead, hi]

theorem regWrite_of_reserved {i : BitVec 4} (hi : portReg i = .reserved) (v : Word) (s : State) :
    regWrite i v s = .next s := by
  simp only [regWrite, hi]

@[simp] theorem regWrite_id (v : Word) (s : State) : regWrite 0 v s = .next s := rfl
@[simp] theorem regWrite_result (v : Word) (s : State) : regWrite 7 v s = .next s := rfl

/-- Settles O14: each index from 10 up is reserved, and the arms of `regWrite` for a reserved index, ID and RESULT keep
the state. -/
theorem reservedAndReadOnlyIndices : Obligations.ReservedAndReadOnlyIndices := by
  refine ⟨fun s rest i v hi => ?_, fun s rest v => ?_⟩
  · have hres := portReg_of_ten_le hi
    exact ⟨by rw [step_issue_cons, hostEvent, regRead_of_reserved hres],
      by rw [step_issue_cons, hostEvent, regWrite_of_reserved hres]⟩
  · exact ⟨by rw [step_issue_cons, hostEvent, regWrite_id], by rw [step_issue_cons, hostEvent, regWrite_result]⟩

/-! ### Rejected and accepted command words -/

/-- The two ways of `Rejects`, the decoder's and E_TAB's, end in the same operation. -/
theorem step_of_rejects {w : Word} {s : State} {e : CmdError} (h : Rejects w s e) (rest : List HostEvent) :
    step (s.issue (.write 8 w :: rest)) = .next (reject e (s.issue rest)) := by
  rw [step_command]
  rcases h with hdec | ⟨rfl, htv, d, hdec | hdec⟩
  · exact runCommand_of_error w _ e hdec
  · exact (runCommand_of_ok w _ _ hdec).trans (exec_tabb_of_not_tvalid d _ htv)
  · exact (runCommand_of_ok w _ _ hdec).trans (exec_trd_of_not_tvalid d _ htv)

theorem legal_ofField_iff (f : BitVec 2) : (ReflMode.ofField f).legal = true ↔ f ≠ 3 := by
  revert f; decide

/-- The decoder lets only legal fields through (30_encoding.md R78). -/
theorem wf_of_decodeFields {w : Word} {i : Instr} (h : decodeFields w = .ok i) : i.wf = true := by
  unfold decodeFields at h
  split at h
  case h_5 => -- SUBB
    split at h
    · cases h
    · next hnb => cases h; simpa [Instr.wf] using hnb
  case h_6 => -- FIN
    split at h
    · cases h
    · next hrm => cases h; exact (legal_ofField_iff _).2 hrm
  case h_7 => -- UNFIN
    split at h
    · cases h
    · next hrm => cases h; exact (legal_ofField_iff _).2 hrm
  case h_8 => -- REFL
    split at h
    · cases h
    · next hrb => cases h; exact decide_eq_true (Nat.not_lt.1 hrb)
  all_goals cases h <;> rfl

theorem wf_of_decode {w : Word} {i : Instr} (h : decode w = .ok i) : i.wf = true := by
  unfold decode at h
  split_ifs at h
  exact wf_of_decodeFields h

/-- No check of 60_exceptions.md R191 stops `i` in a block whose TVALID is `tvalid`: its fields are legal, and it is no
TABB or TRD while TVALID is 0. -/
def Accepted (i : Instr) (tvalid : Bool) : Prop :=
  i.wf = true ∧ ∀ d, i = .tabb d ∨ i = .trd d → tvalid = true

/-- A word that no error rejects decodes to a command that passes every check. -/
theorem exists_accepted_of_not_rejects {w : Word} {s : State} (h : ∀ e, ¬ Rejects w s e) :
    ∃ i, decode w = .ok i ∧ Accepted i s.block.tvalid := by
  cases hdec : decode w with
  | error e => exact absurd (.inl hdec) (h e)
  | ok i =>
    refine ⟨i, rfl, wf_of_decode hdec, fun d hi => ?_⟩
    by_contra htv
    exact h .eTab (.inr ⟨rfl, Bool.eq_false_of_not_eq_true htv, d, by rwa [hdec, Except.ok.injEq, Except.ok.injEq]⟩)

theorem exists_effR_of_legal {m : ReflMode} (h : m.legal = true) (refin refout : Bool) :
    ∃ R, effR m refin refout = some R := by
  cases m with
  | none => exact ⟨_, rfl⟩
  | refl => exact ⟨_, rfl⟩
  | auto => exact ⟨_, rfl⟩
  | reserved => cases h

/-! ### The error bits and CAUSE -/

/-- The state `s` with the error bits and CAUSE of the block `a` (10_state.md R32, R33). -/
abbrev withErrorsOf (s : State) (a : Block s.inst.S) : State :=
  s.withBlock { s.block with
    eOp := a.eOp, eRsv := a.eRsv, eTab := a.eTab, eNb := a.eNb, eRb := a.eRb, cause := a.cause }

/-- An accepted command neither reads nor writes the error bits and CAUSE: its effect on the block is the same whatever
block `a` they are taken from, and keeps them. -/
theorem exec_withErrorsOf {i : Instr} {s : State} (h : Accepted i s.block.tvalid) :
    ∃ b, exec i s = .next (s.withBlock b) ∧
      ∀ a, exec i (withErrorsOf s a) = .next (withErrorsOf (s.withBlock b) a) := by
  obtain ⟨hwf, htab⟩ := h
  cases i with
  | nop => exact ⟨_, rfl, fun _ => rfl⟩
  | seed => exact ⟨_, rfl, fun _ => rfl⟩
  | bitb d => exact ⟨_, rfl, fun _ => rfl⟩
  | build => exact ⟨_, rfl, fun _ => rfl⟩
  | tabb d =>
    have htv := htab d (.inl rfl)
    exact ⟨_, exec_tabb_of_tvalid d s htv, fun a => exec_tabb_of_tvalid d (withErrorsOf s a) htv⟩
  | trd d =>
    have htv := htab d (.inr rfl)
    exact ⟨_, exec_trd_of_tvalid d s htv, fun a => exec_trd_of_tvalid d (withErrorsOf s a) htv⟩
  | subb d n =>
    have hn : n ≠ 0 := bne_iff_ne.1 hwf
    exact ⟨_, exec_subb_of_ne_zero d n s hn, fun a => exec_subb_of_ne_zero d n (withErrorsOf s a) hn⟩
  | refl k =>
    have hk : k.toNat ≤ 64 := of_decide_eq_true hwf
    exact ⟨_, exec_refl_of_le k s hk, fun a => exec_refl_of_le k (withErrorsOf s a) hk⟩
  | fin m =>
    obtain ⟨R, hR⟩ := exists_effR_of_legal hwf s.block.refin s.block.refout
    exact ⟨_, exec_fin_of_effR m s R hR, fun a => exec_fin_of_effR m (withErrorsOf s a) R hR⟩
  | unfin m =>
    obtain ⟨R, hR⟩ := exists_effR_of_legal hwf s.block.refin s.block.refout
    exact ⟨_, exec_unfin_of_effR m s R hR, fun a => exec_unfin_of_effR m (withErrorsOf s a) R hR⟩

/-- The step of an accepted write to CMD, with next state `t`, is the same with every choice of error bits and CAUSE. -/
theorem step_withErrorsOf {w : Word} {s t : State} {rest : List HostEvent} (hacc : ∀ e, ¬ Rejects w s e)
    (hstep : step (s.issue (.write 8 w :: rest)) = .next t) :
    ∃ b, t = (s.issue rest).withBlock b ∧
      ∀ a, step ((withErrorsOf s a).issue (.write 8 w :: rest)) =
        .next (withErrorsOf ((s.issue rest).withBlock b) a) := by
  obtain ⟨i, hdec, hi⟩ := exists_accepted_of_not_rejects hacc
  obtain ⟨b, hb, hall⟩ := exec_withErrorsOf (s := s.issue rest) hi
  rw [step_command, runCommand_of_ok w _ i hdec, hb] at hstep
  cases hstep
  exact ⟨b, rfl, fun a => (runCommand_of_ok w _ i hdec).trans (hall a)⟩

/-- Settles O25. A rejection is `reject`; for any other word `step_withErrorsOf` gives the effect with every choice of
pending error bits, and with the state's own choice it says that they are kept. -/
theorem errorBitsAreSticky : Obligations.ErrorBitsAreSticky := by
  refine ⟨fun s t rest w e hrej hstep => ?_, fun s t rest w hacc hstep => ?_,
    fun s rest w b o r a n k c hacc hstep => ?_⟩
  · cases (step_of_rejects hrej rest).symm.trans hstep
    exact ⟨raise_eOp _ e, raise_eRsv _ e, raise_eTab _ e, raise_eNb _ e, raise_eRb _ e⟩
  · obtain ⟨b, -, hall⟩ := step_withErrorsOf hacc hstep
    cases (hall s.block).symm.trans hstep
    exact ⟨rfl, rfl, rfl, rfl, rfl, rfl⟩
  · obtain ⟨b', ht, hall⟩ := step_withErrorsOf hacc hstep
    cases ht
    exact hall { s.block with eOp := o, eRsv := r, eTab := a, eNb := n, eRb := k, cause := c }

end Sys2Proof.Proofs.State
end

