-- ==== Sys2Proof/Proofs/Memory.lean ====
section
/-! PROOFS. Reads of the register port, and reads after a write (20_memory.md R54, R56). -/

namespace Sys2Proof.Proofs.Memory

open Sys2Proof Sys2Proof.Machine

/-! ### Reads -/

/-- A read looks at the instance and the block alone, not at the host's side. -/
@[simp] theorem regRead_issue (i : BitVec 4) (s : State) (evs : List HostEvent) :
    regRead i (s.issue evs) = regRead i s := rfl

@[simp] theorem regRead_reply (i : BitVec 4) (s : State) (w : Word) : regRead i (s.reply w) = regRead i s := rfl

theorem step_read (i : BitVec 4) (s : State) (rest : List HostEvent) :
    step (s.issue (.read i :: rest)) = .next ((s.reply (regRead i s)).issue rest) := by
  rw [step_issue_cons, hostEvent, regRead_issue]

/-- Reads one after another return what the block held before the first of them, and change nothing else. -/
theorem run_reads (js : List (BitVec 4)) (s : State) (rest : List HostEvent) :
    run js.length (s.issue (js.map .read ++ rest)) =
      .next { s.issue rest with replies := s.replies ++ js.map (regRead · s) } := by
  induction js generalizing s with
  | nil => simp [run]
  | cons j js ih =>
    rw [List.length_cons, List.map_cons, List.cons_append, run_succ_of_step _ _ _ (step_read j s _), ih]
    simp

/-- Settles O10: a read is `step_read`, and two reads of `i` with the reads `js` between them are the reads
`i :: js ++ [i]`. -/
theorem readsHaveNoSideEffect : Obligations.ReadsHaveNoSideEffect := by
  refine fun s i => ⟨regRead i s, step_read i s, fun js rest => ⟨js.map (regRead · s), ?_⟩⟩
  simpa using run_reads (i :: js ++ [i]) s rest

/-! ### A read after a write -/

/-- A write that stores the block `b`, then a read of the same index. -/
theorem run_write_read {i : BitVec 4} {v : Word} {s : State} {rest : List HostEvent} {b : Block s.inst.S}
    (h : regWrite i v (s.issue (.read i :: rest)) = .next ((s.issue (.read i :: rest)).withBlock b)) :
    run 2 (s.issue (.write i v :: .read i :: rest)) =
      .next (((s.issue rest).withBlock b).reply (regRead i (s.withBlock b))) := by
  have hwrite : step (s.issue (.write i v :: .read i :: rest)) = .next ((s.withBlock b).issue (.read i :: rest)) := by
    rw [step_issue_cons, hostEvent, h]
  rw [run_succ_of_step 1 _ _ hwrite]
  exact run_succ_of_step 0 _ _ (step_read i (s.withBlock b) rest)

/-- The low `n` bits of a word, zero-extended, as a number (20_memory.md R54). -/
theorem setWidth_setWidth_eq_ofNat (v : Word) (n : Nat) :
    (v.setWidth n).setWidth 64 = BitVec.ofNat 64 (v.toNat % 2 ^ n) := by
  rw [← BitVec.toNat_setWidth, BitVec.ofNat_toNat]

theorem narrow_index_cases {i : BitVec 4} (h1 : 1 ≤ i.toNat) (h5 : i.toNat ≤ 5) :
    i = 1 ∨ i = 2 ∨ i = 3 ∨ i = 4 ∨ i = 5 := by
  revert i; decide

/-- What a narrow register holds after a write, read through the port: 2 bits of CFG, `S` bits of the others. -/
theorem regRead_after_regWrite {i : BitVec 4} (h1 : 1 ≤ i.toNat) (h5 : i.toNat ≤ 5) (v : Word) (s : State) :
    ∃ b, regWrite i v s = .next (s.withBlock b) ∧ regRead i (s.withBlock b) =
      BitVec.ofNat 64 (v.toNat % 2 ^ (if i.toNat = 1 then 2 else s.inst.S)) := by
  obtain rfl | rfl | rfl | rfl | rfl := narrow_index_cases h1 h5
  · exact ⟨s.block.writeCfg v, rfl, setWidth_setWidth_eq_ofNat v 2⟩
  · exact ⟨s.block.writePoly v, rfl, setWidth_setWidth_eq_ofNat v s.inst.S⟩
  · exact ⟨s.block.writeInit v, rfl, setWidth_setWidth_eq_ofNat v s.inst.S⟩
  · exact ⟨s.block.writeXorout v, rfl, setWidth_setWidth_eq_ofNat v s.inst.S⟩
  · exact ⟨s.block.writeRem v, rfl, setWidth_setWidth_eq_ofNat v s.inst.S⟩

/-- Settles O12: the read after the write returns what `regRead_after_regWrite` says the register holds. -/
theorem narrowRegistersTruncate : Obligations.NarrowRegistersTruncate := by
  intro s rest v i h1 h5
  obtain ⟨b, hwrite, hread⟩ := regRead_after_regWrite h1 h5 v (s.issue (.read i :: rest))
  exact ⟨_, run_write_read hwrite, rfl, congrArg (s.replies ++ [·]) hread⟩

end Sys2Proof.Proofs.Memory
end

