-- ==== Sys2Proof/Proofs/Encoding.lean ====
section
/-! PROOFS. What the decoder looks at: the opcode, the reserved bits, and the fields the opcode uses
(30_encoding.md R73, R75). -/

namespace Sys2Proof.Proofs.Encoding

open Sys2Proof

/-! ### Words that agree on a mask -/

/-- The bits of the union of two masks are 0 when those of each are. -/
theorem and_or_eq_zero_iff {u a b : Word} : u &&& (a ||| b) = 0 ↔ u &&& a = 0 ∧ u &&& b = 0 := by
  rw [BitVec.and_or_distrib_left]
  exact BitVec.or_eq_zero_iff

/-- Words that agree on a mask agree on every field that lies within it. -/
theorem extractLsb'_eq_of_and_eq {w v m : Word} (h : w &&& m = v &&& m) (k n : Nat)
    (hm : m.extractLsb' k n = BitVec.allOnes n) : w.extractLsb' k n = v.extractLsb' k n := by
  have hfield := congrArg (·.extractLsb' k n) h
  simpa [BitVec.extractLsb'_and, hm] using hfield

theorem or_and_eq_of_and_eq_zero {w u m : Word} (h : u &&& m = 0) : (w ||| u) &&& m = w &&& m := by
  rw [BitVec.and_comm, BitVec.and_or_distrib_left, BitVec.and_comm m u, h, BitVec.and_comm m w]
  exact BitVec.or_zero

/-! ### The opcode -/

theorem opField_or_of_and_eq_zero {w u : Word} (h : u &&& 0xF = 0) : opField (w ||| u) = opField w :=
  extractLsb'_eq_of_and_eq (or_and_eq_of_and_eq_zero h) 0 4 (by decide)

theorem opField_encode (i : Instr) : opField (encode i) = i.opcode := by
  simpa using opField_encode_or i 0 BitVec.zero_and

/-! ### The checks in front of the fields -/

theorem decode_encode_or_eq_decodeFields (i : Instr) (u : Word) (hu : u &&& (rsvMask ||| i.usedBits) = 0) :
    decode (encode i ||| u) = decodeFields (encode i ||| u) :=
  decode_of_legal _ (by rw [opField_encode_or i u hu]; exact opcode_lt i) (encode_or_and_rsvMask i u hu)

theorem decode_encode_eq_decodeFields (i : Instr) : decode (encode i) = decodeFields (encode i) := by
  simpa using decode_encode_or_eq_decodeFields i 0 BitVec.zero_and

/-- R75: a reserved bit under a legal opcode. -/
theorem decode_of_reserved_bit {w : Word} (hop : (opField w).toNat < 0xA) (hrsv : w &&& rsvMask ≠ 0) :
    decode w = .error .eRsv := by
  rw [decode, if_neg (Nat.not_le.2 hop), if_pos hrsv]

/-! ### The field checks and the command, by opcode (30_encoding.md section 3) -/

section
variable {w : Word}

theorem decodeFields_nop (h : opField w = 0x0) : decodeFields w = .ok .nop := by
  rw [decodeFields, h]; rfl

theorem decodeFields_seed (h : opField w = 0x1) : decodeFields w = .ok .seed := by
  rw [decodeFields, h]; rfl

theorem decodeFields_bitb (h : opField w = 0x2) : decodeFields w = .ok (.bitb (dataField w)) := by
  rw [decodeFields, h]; rfl

theorem decodeFields_tabb (h : opField w = 0x3) : decodeFields w = .ok (.tabb (dataField w)) := by
  rw [decodeFields, h]; rfl

theorem decodeFields_subb (h : opField w = 0x4) : decodeFields w =
    if nbField w = 0 then .error .eNb else .ok (.subb (dataField w) (nbField w)) := by
  rw [decodeFields, h]; rfl

theorem decodeFields_fin (h : opField w = 0x5) : decodeFields w =
    if rmField w = 3 then .error .eRsv else .ok (.fin (ReflMode.ofField (rmField w))) := by
  rw [decodeFields, h]; rfl

theorem decodeFields_unfin (h : opField w = 0x6) : decodeFields w =
    if rmField w = 3 then .error .eRsv else .ok (.unfin (ReflMode.ofField (rmField w))) := by
  rw [decodeFields, h]; rfl

theorem decodeFields_refl (h : opField w = 0x7) : decodeFields w =
    if 64 < (rbField w).toNat then .error .eRb else .ok (.refl (rbField w)) := by
  rw [decodeFields, h]; rfl

theorem decodeFields_build (h : opField w = 0x8) : decodeFields w = .ok .build := by
  rw [decodeFields, h]; rfl

theorem decodeFields_trd (h : opField w = 0x9) : decodeFields w = .ok (.trd (dataField w)) := by
  rw [decodeFields, h]; rfl

end

/-- Under the opcode of `i`, the field checks and the command depend on the used bits alone. -/
theorem decodeFields_eq_of_used_eq {i : Instr} {w v : Word} (hw : opField w = i.opcode) (hv : opField v = i.opcode)
    (h : w &&& i.usedBits = v &&& i.usedBits) : decodeFields w = decodeFields v := by
  cases i with
  | nop => rw [decodeFields_nop hw, decodeFields_nop hv]
  | seed => rw [decodeFields_seed hw, decodeFields_seed hv]
  | build => rw [decodeFields_build hw, decodeFields_build hv]
  | bitb d =>
    have hdata : dataField w = dataField v := extractLsb'_eq_of_and_eq (m := 0xFF0F) h 8 8 (by decide)
    rw [decodeFields_bitb hw, decodeFields_bitb hv, hdata]
  | tabb d =>
    have hdata : dataField w = dataField v := extractLsb'_eq_of_and_eq (m := 0xFF0F) h 8 8 (by decide)
    rw [decodeFields_tabb hw, decodeFields_tabb hv, hdata]
  | trd d =>
    have hdata : dataField w = dataField v := extractLsb'_eq_of_and_eq (m := 0xFF0F) h 8 8 (by decide)
    rw [decodeFields_trd hw, decodeFields_trd hv, hdata]
  | subb d n =>
    have hdata : dataField w = dataField v := extractLsb'_eq_of_and_eq (m := 0x7FF0F) h 8 8 (by decide)
    have hnb : nbField w = nbField v := extractLsb'_eq_of_and_eq (m := 0x7FF0F) h 16 3 (by decide)
    rw [decodeFields_subb hw, decodeFields_subb hv, hdata, hnb]
  | fin m =>
    have hrm : rmField w = rmField v := extractLsb'_eq_of_and_eq (m := 0x3F) h 4 2 (by decide)
    rw [decodeFields_fin hw, decodeFields_fin hv, hrm]
  | unfin m =>
    have hrm : rmField w = rmField v := extractLsb'_eq_of_and_eq (m := 0x3F) h 4 2 (by decide)
    rw [decodeFields_unfin hw, decodeFields_unfin hv, hrm]
  | refl k =>
    have hrb : rbField w = rbField v := extractLsb'_eq_of_and_eq (m := 0x7F00000F) h 24 7 (by decide)
    rw [decodeFields_refl hw, decodeFields_refl hv, hrb]

/-- Settles O20. Bits outside the reserved and the used ones pass the first two checks and leave the used bits as they
are; a reserved bit above the opcode stops the decoder at its second check. -/
theorem unusedFieldsAreIgnored : Obligations.UnusedFieldsAreIgnored := by
  refine ⟨fun i u hu => ?_, fun i u hop hrsv => ?_⟩
  · have hused : u &&& i.usedBits = 0 := (and_or_eq_zero_iff.1 hu).2
    calc decode (encode i ||| u)
      _ = decodeFields (encode i ||| u) := decode_encode_or_eq_decodeFields i u hu
      _ = decodeFields (encode i) :=
        decodeFields_eq_of_used_eq (opField_encode_or i u hu) (opField_encode i) (or_and_eq_of_and_eq_zero hused)
      _ = decode (encode i) := (decode_encode_eq_decodeFields i).symm
  · apply decode_of_reserved_bit
    · rw [opField_or_of_and_eq_zero hop, opField_encode]
      exact opcode_lt i
    · rw [BitVec.and_comm, Ne, and_or_eq_zero_iff, BitVec.and_comm _ u]
      exact fun h => hrsv h.2

end Sys2Proof.Proofs.Encoding
end

