-- ==== Sys2Proof/Proofs/Reflect.lean ====
section
/-! PROOFS. The reflect unit and REFL (40_reflect.md R90, R92). -/

namespace Sys2Proof.Proofs.Reflect

open Sys2Proof Sys2Proof.Machine

/-- R90 as the spec writes it: the reversed bit below the count, 0 above it. -/
theorem getLsbD_reflect_eq_ite {N n : Nat} (v : BitVec N) (hn : n ≤ N) (i : Nat) :
    (reflect v n).getLsbD i = if i < n then v.getLsbD (n - 1 - i) else false := by
  rw [getLsbD_reflect v n hn, Bool.if_false_right]

/-- Settles O36: both parts are `getLsbD_reflect_eq_ite`, the second for the value that REFL stores in RESULT. -/
theorem reflectReversesTheLowBits : Obligations.ReflectReversesTheLowBits := by
  refine ⟨fun N v n i hn _ => getLsbD_reflect_eq_ite v hn i, fun s rb hrb => ?_⟩
  exact ⟨reflect s.block.opnd rb.toNat, exec_refl_of_le rb s hrb, fun i _ => getLsbD_reflect_eq_ite s.block.opnd hrb i⟩

end Sys2Proof.Proofs.Reflect
end

