-- ==== Sys2Proof/Proofs/Table.lean ====
section
/-! PROOFS. The table entries and BUILD (42_table.md R120, R122). -/

namespace Sys2Proof.Proofs.Table

open Sys2Proof Sys2Proof.Machine

/-! ### The entries as numbers -/

/-- The mask of a rule (00_scope.md R4) as a remainder. -/
theorem toNat_and_lowMask {n k : Nat} (v : BitVec n) (hk : k ≤ n) : (v &&& lowMask n k).toNat = v.toNat % 2 ^ k := by
  have hmask : 2 ^ k - 1 < 2 ^ n := Nat.sub_one_lt_of_le (Nat.two_pow_pos k) (Nat.pow_le_pow_right (by decide) hk)
  rw [BitVec.toNat_and, lowMask, BitVec.toNat_ofNat, Nat.mod_eq_of_lt hmask, Nat.and_two_pow_sub_one_eq_mod]

/-- A masked value shifted up to the end of a byte loses no bit: it has `W` bits, and `sh W` more are still within the
8 bits that every storage width has. -/
theorem toNat_masked_shiftLeft_sh {S W : Nat} (v : BitVec S) (hW : W < 8) (hS : 8 ≤ S) :
    ((v &&& lowMask S W) <<< sh W).toNat = v.toNat % 2 ^ W * 2 ^ (8 - W) := by
  have hfits : v.toNat % 2 ^ W * 2 ^ (8 - W) < 2 ^ S := calc
    _ < 2 ^ W * 2 ^ (8 - W) :=
      Nat.mul_lt_mul_of_pos_right (Nat.mod_lt _ (Nat.two_pow_pos W)) (Nat.two_pow_pos _)
    _ = 2 ^ 8 := by rw [← Nat.pow_add, Nat.add_sub_cancel' hW.le]
    _ ≤ 2 ^ S := Nat.pow_le_pow_right (by decide) hS
  rw [BitVec.toNat_shiftLeft, toNat_and_lowMask v (hW.le.trans hS), sh, Nat.shiftLeft_eq, Nat.mod_eq_of_lt hfits]

/-- R120 with numbers: the byte from a zero remainder, its low `W` bits, and in NARROW those shifted up. -/
theorem toNat_entry {S W : Nat} (refin : Bool) (poly : BitVec S) (b : Byte) (hW : W ≤ S) (hS : 8 ≤ S) :
    (entry W refin poly b).toNat =
      if refin = false ∧ W < 8 then (bitByte W refin poly 0#S b).toNat % 2 ^ W * 2 ^ (8 - W)
      else (bitByte W refin poly 0#S b).toNat % 2 ^ W := by
  obtain ⟨href, hreg⟩ | ⟨-, h8, hreg⟩ | ⟨href, h8, hreg⟩ := regime_cases W refin
  · rw [if_neg (by simp [href]), entry, hreg]
    exact toNat_and_lowMask _ hW
  · rw [if_neg (by omega), entry, hreg]
    exact toNat_and_lowMask _ hW
  · rw [if_pos ⟨href, h8⟩, entry, hreg]
    exact toNat_masked_shiftLeft_sh _ h8 hS

/-! ### BUILD -/

/-- The table BUILD writes is a function of `W` and of the block's REFIN and POLY, whatever else the block holds. -/
theorem exec_build_withBlock (s : State) (b : Block s.inst.S) :
    exec .build (s.withBlock b) =
      .next (s.withBlock { b with table := buildTable s.inst.W b.refin b.poly, tvalid := true }) := rfl

/-- BITB on a zero REM runs the byte from the remainder that R120 starts an entry with. -/
theorem exec_bitb_of_zero_rem (s : State) (d : Byte) :
    exec (.bitb d) (s.withBlock { s.block with rem := 0#s.inst.S }) =
      .next (s.withBlock { s.block with rem := bitByte s.inst.W s.block.refin s.block.poly 0#s.inst.S d }) := rfl

/-- Settles O33: the table is `buildTable` of the state's REFIN and POLY; its entry at `b` is `entry`, and `toNat_entry`
gives that in terms of what BITB leaves from a zero REM. -/
theorem buildWritesEveryEntry : Obligations.BuildWritesEveryEntry := by
  refine fun s => ⟨buildTable s.inst.W s.block.refin s.block.poly, fun b hpoly hrefin => ?_, fun b => ?_⟩
  · rw [exec_build_withBlock, hpoly, hrefin]
  · refine ⟨_, exec_bitb_of_zero_rem s b, ?_⟩
    rw [← readTable, readTable_buildTable]
    exact toNat_entry _ _ b s.inst.W_le_S (storage_bounds s.inst).1

end Sys2Proof.Proofs.Table
end

