-- ==== Sys2Proof/Proofs/Finalize.lean ====
section
/-! PROOFS. The finalize / unfinalize unit, FIN and UNFIN (44_finalize.md R150 to R154). -/

namespace Sys2Proof.Proofs.Finalize

open Sys2Proof Sys2Proof.Machine

/-- R152 as a condition on the mode: the flag is 1 for `refl`, and for `auto` when REFIN and REFOUT differ. -/
theorem effR_of_ne_reserved {m : ReflMode} (hm : m ≠ .reserved) (refin refout : Bool) :
    effR m refin refout = some (decide (m = .refl ∨ (m = .auto ∧ refin ≠ refout))) := by
  cases m with
  | none => rfl
  | refl => rfl
  | auto => cases refin <;> cases refout <;> rfl
  | reserved => exact absurd rfl hm

/-- FIN of the reserved mode takes the `raise` line of R153. -/
theorem exec_fin_reserved (s : State) : exec (.fin .reserved) s = .next (reject .eRsv s) := rfl

/-- The value FIN stores in RESULT: zero extension to 64 bits keeps every bit of `finalize`. -/
theorem getLsbD_setWidth_finalize (c : Instance) (xorout r : BitVec c.S) (R : Bool) {i : Nat} (hi : i < 64) :
    ((finalize c.W xorout r R).setWidth 64).getLsbD i =
      (decide (i < c.W) && ((if R then r.getLsbD (c.W - 1 - i) else r.getLsbD i) ^^ xorout.getLsbD i)) := by
  rw [BitVec.getLsbD_setWidth, decide_eq_true hi, Bool.true_and, getLsbD_finalize c.W xorout r R c.W_le_S]

/-- Settles O34: RESULT takes `finalize` of the flag that `effR_of_ne_reserved` gives, read bit by bit. -/
theorem finGivesTheChecksumBits : Obligations.FinGivesTheChecksumBits := by
  refine ⟨fun s m hm => ?_, exec_fin_reserved⟩
  refine ⟨_, exec_fin_of_effR m s _ (effR_of_ne_reserved hm s.block.refin s.block.refout), fun i hi => ?_⟩
  rw [getLsbD_setWidth_finalize s.inst _ _ _ hi]
  simp only [decide_eq_true_eq]

/-- Settles O35: REM takes `undoFinalize` of the flag that `effR_of_ne_reserved` gives, read bit by bit. -/
theorem unfinRecoversTheRemainderBits : Obligations.UnfinRecoversTheRemainderBits := by
  intro s m hm
  refine ⟨_, exec_unfin_of_effR m s _ (effR_of_ne_reserved hm s.block.refin s.block.refout), fun i hi => ?_⟩
  rw [getLsbD_undoFinalize s.inst.W _ _ _ s.inst.W_le_S (storage_bounds s.inst).2 i hi]
  simp only [decide_eq_true_eq]

end Sys2Proof.Proofs.Finalize
end

