-- ==== Sys2Proof/Proofs/Control.lean ====
section
/-! PROOFS. The control commands: what a NOP word does (45_control.md R165). -/

namespace Sys2Proof.Proofs.Control

open Sys2Proof Sys2Proof.Machine Sys2Proof.Proofs.Encoding

theorem exec_nop (s : State) : exec .nop s = .next s := rfl

/-- The opcode is the low four bits of the word. -/
theorem opField_of_and_eq_zero {w : Word} (h : w &&& 0xF = 0) : opField w = 0 :=
  extractLsb'_eq_of_and_eq (v := 0) h 0 4 (by decide)

/-- A word of opcode 0: the decoder looks at the reserved bits and at no field. -/
theorem decode_of_nop_opcode {w : Word} (h : opField w = 0) :
    decode w = if w &&& rsvMask = 0 then .ok .nop else .error .eRsv := by
  have hop : (opField w).toNat < 0xA := by rw [h]; decide
  split_ifs with hrsv
  · rw [decode_of_legal w hop hrsv, decodeFields_nop h]
  · exact decode_of_reserved_bit hop hrsv

/-- Settles O27: `exec` of NOP keeps the state, and `decode_of_nop_opcode` says which words of opcode 0 reach it. -/
theorem nopChangesNothing : Obligations.NopChangesNothing := by
  refine ⟨exec_nop, fun s rest w hw => ?_⟩
  have hdec := decode_of_nop_opcode (opField_of_and_eq_zero hw)
  rw [rsvMask] at hdec
  rw [step_command]
  split_ifs with hrsv
  · exact (runCommand_of_ok w _ .nop (hdec.trans (if_pos hrsv))).trans (exec_nop _)
  · exact runCommand_of_error w _ .eRsv (hdec.trans (if_neg hrsv))

end Sys2Proof.Proofs.Control
end

