-- ==== Sys2Proof/Proofs/Exceptions.lean ====
section
/-! PROOFS. What a rejection writes, and the order of the checks of a command word (60_exceptions.md R190 to R192). -/

namespace Sys2Proof.Proofs.Exceptions

open Sys2Proof Sys2Proof.Machine Sys2Proof.Proofs.State Sys2Proof.Proofs.Encoding

/-! ### What a rejection writes -/

/-- The block after a rejection, in one form for the five errors. -/
theorem raise_eq {S : Nat} (b : Block S) (e : CmdError) : b.raise e = { b with
    eOp := b.eOp || decide (e = .eOp)
    eRsv := b.eRsv || decide (e = .eRsv)
    eTab := b.eTab || decide (e = .eTab)
    eNb := b.eNb || decide (e = .eNb)
    eRb := b.eRb || decide (e = .eRb)
    cause := errorCode e } := by
  cases e <;> simp [Block.raise]

/-- Settles O24: every rejection is `reject`, and `raise_eq` says what it writes. -/
theorem rejectedCommandChangesTwoThings : Obligations.RejectedCommandChangesTwoThings := by
  intro s rest w e hrej
  rw [step_of_rejects hrej, reject_eq, raise_eq]
  cases e <;> rfl

/-! ### The fields of a word as numbers (30_encoding.md R72) -/

theorem opField_eq_of_toNat {w : Word} {o : BitVec 4} (h : w.toNat % 16 = o.toNat) : opField w = o :=
  BitVec.eq_of_toNat_eq ((opField_toNat w).trans h)

theorem rmField_eq_iff (w : Word) (m : BitVec 2) : rmField w = m ↔ w.toNat / 2 ^ 4 % 4 = m.toNat := by
  rw [← rmField_toNat, BitVec.toNat_inj]

theorem nbField_eq_iff (w : Word) (n : BitVec 3) : nbField w = n ↔ w.toNat / 2 ^ 16 % 8 = n.toNat := by
  rw [← nbField_toNat, BitVec.toNat_inj]

theorem dataField_eq_ofNat (w : Word) : dataField w = BitVec.ofNat 8 (w.toNat / 2 ^ 8) :=
  BitVec.eq_of_toNat_eq (dataField_toNat w)

theorem nbField_eq_ofNat (w : Word) : nbField w = BitVec.ofNat 3 (w.toNat / 2 ^ 16 % 8) := by
  rw [← nbField_toNat, BitVec.ofNat_toNat, BitVec.setWidth_eq]

theorem rbField_eq_ofNat (w : Word) : rbField w = BitVec.ofNat 7 (w.toNat / 2 ^ 24 % 128) := by
  rw [← rbField_toNat, BitVec.ofNat_toNat, BitVec.setWidth_eq]

/-- The mode that RM names as a number other than 3 (30_encoding.md R71). -/
def legalMode (rm : Nat) : ReflMode := if rm = 0 then .none else if rm = 1 then .refl else .auto

theorem ofField_eq_legalMode {f : BitVec 2} (h : f ≠ 3) : ReflMode.ofField f = legalMode f.toNat := by
  revert f; decide

/-- The mode check of FIN and UNFIN, with RM as a number. -/
theorem ite_rmField {α : Type} (w : Word) (a : α) (f : ReflMode → α) :
    (if rmField w = 3 then a else f (ReflMode.ofField (rmField w))) =
      if w.toNat / 2 ^ 4 % 4 = 3 then a else f (legalMode (w.toNat / 2 ^ 4 % 4)) :=
  have hrm := rmField_eq_iff w 3
  ite_congr (propext hrm) (fun _ => rfl) fun hne => by
    rw [ofField_eq_legalMode (hne ∘ hrm.1), rmField_toNat]

/-! ### What a command word does, check by check -/

theorem decode_of_reserved_opcode {w : Word} (hop : 0xA ≤ (opField w).toNat) : decode w = .error .eOp :=
  if_pos hop

/-- A word under whose opcode one check stands: the check's rejection, or the command. -/
theorem runCommand_of_check {w : Word} {c : Prop} [Decidable c] {e : CmdError} {i : Instr}
    (h : decode w = if c then .error e else .ok i) (s : State) :
    runCommand w s = if c then .next (reject e s) else exec i s := by
  split_ifs at h ⊢
  · exact runCommand_of_error w s e h
  · exact runCommand_of_ok w s i h

section
/-! Words that pass the first two checks, by opcode. -/

variable {w : Word} (hdec : decode w = decodeFields w) (s : State)
include hdec

theorem runCommand_nop (h : w.toNat % 16 = 0) : runCommand w s = exec .nop s :=
  runCommand_of_ok w s _ (hdec.trans (decodeFields_nop (opField_eq_of_toNat h)))

theorem runCommand_seed (h : w.toNat % 16 = 1) : runCommand w s = exec .seed s :=
  runCommand_of_ok w s _ (hdec.trans (decodeFields_seed (opField_eq_of_toNat h)))

theorem runCommand_bitb (h : w.toNat % 16 = 2) :
    runCommand w s = exec (.bitb (BitVec.ofNat 8 (w.toNat / 2 ^ 8))) s := by
  rw [← dataField_eq_ofNat]
  exact runCommand_of_ok w s _ (hdec.trans (decodeFields_bitb (opField_eq_of_toNat h)))

theorem runCommand_tabb (h : w.toNat % 16 = 3) : runCommand w s =
    if s.block.tvalid = false then .next (reject .eTab s) else exec (.tabb (BitVec.ofNat 8 (w.toNat / 2 ^ 8))) s := by
  rw [← dataField_eq_ofNat, runCommand_of_ok w s _ (hdec.trans (decodeFields_tabb (opField_eq_of_toNat h)))]
  split_ifs with htv
  · exact exec_tabb_of_not_tvalid _ s htv
  · rfl

theorem runCommand_subb (h : w.toNat % 16 = 4) : runCommand w s =
    if w.toNat / 2 ^ 16 % 8 = 0 then .next (reject .eNb s)
    else exec (.subb (BitVec.ofNat 8 (w.toNat / 2 ^ 8)) (BitVec.ofNat 3 (w.toNat / 2 ^ 16 % 8))) s := by
  rw [← dataField_eq_ofNat, ← nbField_eq_ofNat,
    runCommand_of_check (hdec.trans (decodeFields_subb (opField_eq_of_toNat h)))]
  exact if_congr (nbField_eq_iff w 0) rfl rfl

theorem runCommand_fin (h : w.toNat % 16 = 5) : runCommand w s =
    if w.toNat / 2 ^ 4 % 4 = 3 then .next (reject .eRsv s) else exec (.fin (legalMode (w.toNat / 2 ^ 4 % 4))) s :=
  (runCommand_of_check (hdec.trans (decodeFields_fin (opField_eq_of_toNat h))) s).trans
    (ite_rmField w _ fun m => exec (.fin m) s)

theorem runCommand_unfin (h : w.toNat % 16 = 6) : runCommand w s =
    if w.toNat / 2 ^ 4 % 4 = 3 then .next (reject .eRsv s) else exec (.unfin (legalMode (w.toNat / 2 ^ 4 % 4))) s :=
  (runCommand_of_check (hdec.trans (decodeFields_unfin (opField_eq_of_toNat h))) s).trans
    (ite_rmField w _ fun m => exec (.unfin m) s)

theorem runCommand_refl (h : w.toNat % 16 = 7) : runCommand w s =
    if 64 < w.toNat / 2 ^ 24 % 128 then .next (reject .eRb s)
    else exec (.refl (BitVec.ofNat 7 (w.toNat / 2 ^ 24 % 128))) s := by
  rw [← rbField_eq_ofNat, ← rbField_toNat]
  exact runCommand_of_check (hdec.trans (decodeFields_refl (opField_eq_of_toNat h))) s

theorem runCommand_build (h : w.toNat % 16 = 8) : runCommand w s = exec .build s :=
  runCommand_of_ok w s _ (hdec.trans (decodeFields_build (opField_eq_of_toNat h)))

theorem runCommand_trd (h : w.toNat % 16 = 9) : runCommand w s =
    if s.block.tvalid = false then .next (reject .eTab s) else exec (.trd (BitVec.ofNat 8 (w.toNat / 2 ^ 8))) s := by
  rw [← dataField_eq_ofNat, runCommand_of_ok w s _ (hdec.trans (decodeFields_trd (opField_eq_of_toNat h)))]
  split_ifs with htv
  · exact exec_trd_of_not_tvalid _ s htv
  · rfl

end

/-- Settles O23: the decoder's first two checks, then the opcode, whose own lemma leaves the arms of the chain that
can apply under it. -/
theorem checksStandInOrder : Obligations.ChecksStandInOrder := by
  intro s rest w
  rw [step_command]
  dsimp only
  have hop := opField_toNat w
  by_cases hres : 0xA ≤ w.toNat % 16
  · rw [if_pos hres]
    exact runCommand_of_error w _ .eOp (decode_of_reserved_opcode (hop ▸ hres))
  rw [if_neg hres]
  have hlegal : (opField w).toNat < 0xA := hop ▸ Nat.lt_of_not_le hres
  by_cases hrsv : w &&& 0xFFFFFFFF80F800C0 ≠ 0
  · rw [if_pos hrsv]
    exact runCommand_of_error w _ .eRsv (decode_of_reserved_bit hlegal hrsv)
  rw [if_neg hrsv]
  have hdec : decode w = decodeFields w := decode_of_legal w hlegal (not_not.1 hrsv)
  obtain h | h | h | h | h | h | h | h | h | h : w.toNat % 16 = 0 ∨ w.toNat % 16 = 1 ∨ w.toNat % 16 = 2 ∨
      w.toNat % 16 = 3 ∨ w.toNat % 16 = 4 ∨ w.toNat % 16 = 5 ∨ w.toNat % 16 = 6 ∨ w.toNat % 16 = 7 ∨
      w.toNat % 16 = 8 ∨ w.toNat % 16 = 9 := by omega
  · simp [h, runCommand_nop hdec _ h]
  · simp [h, runCommand_seed hdec _ h]
  · simp [h, runCommand_bitb hdec _ h]
  · simp [h, runCommand_tabb hdec _ h]
  · simp [h, runCommand_subb hdec _ h]
  · simp [h, runCommand_fin hdec _ h, legalMode]
  · simp [h, runCommand_unfin hdec _ h, legalMode]
  · simp [h, runCommand_refl hdec _ h]
  · simp [h, runCommand_build hdec _ h]
  · simp [h, runCommand_trd hdec _ h]

end Sys2Proof.Proofs.Exceptions
end

