-- ==== Sys2Proof/Proofs/Other.lean ====
section
/-! PROOFS. The statements that range over the whole machine: decoding an encoded command, what one step can do and
what it keeps, the frames of the commands, the laws of the units, the two engines and the bit-serial register, and the
host procedures. -/

namespace Sys2Proof.Proofs.Other

open Sys2Proof Sys2Proof.Machine Sys2Proof.Proofs.State Sys2Proof.Proofs.Encoding Sys2Proof.Proofs.Memory
open Sys2Proof.Proofs.Table Sys2Proof.Proofs.Finalize

/-! ### Decoding an encoded command (30_encoding.md sections 1 to 4) -/

/-- The opcode lies below every field, so a field of a command's word is that of its field bits. -/
theorem extractLsb'_encode (i : Instr) (k n : Nat) (hk : 4 ≤ k) :
    (encode i).extractLsb' k n = i.fieldBits.extractLsb' k n := by
  apply extract_eq_of_bits
  intro j hj
  rw [encode, BitVec.getLsbD_or, getLsbD_opcode, BitVec.getLsbD_of_ge i.opcode (k + j) (by omega), Bool.false_or,
    BitVec.getLsbD_extractLsb', decide_eq_true hj, Bool.true_and]

theorem dataField_encode (i : Instr) : dataField (encode i) = dataField i.fieldBits :=
  extractLsb'_encode i 8 8 (by decide)

theorem nbField_encode (i : Instr) : nbField (encode i) = nbField i.fieldBits :=
  extractLsb'_encode i 16 3 (by decide)

theorem rmField_encode (i : Instr) : rmField (encode i) = rmField i.fieldBits :=
  extractLsb'_encode i 4 2 (by decide)

theorem rbField_encode (i : Instr) : rbField (encode i) = rbField i.fieldBits :=
  extractLsb'_encode i 24 7 (by decide)

/-- A field read back from its own place. -/
theorem extractLsb'_field {n : Nat} (f : BitVec n) (k : Nat) (h : k + n ≤ 64) :
    ((f.setWidth 64 : Word) <<< k).extractLsb' k n = f := by
  apply extract_eq_of_bits
  intro j hj
  rw [getLsbD_field, decide_eq_true (show k + j < 64 by omega), decide_eq_true (Nat.le_add_right k j),
    Nat.add_sub_cancel_left, Bool.true_and, Bool.true_and]

theorem dataField_place (d : Byte) : dataField (d.setWidth 64 <<< 8) = d := extractLsb'_field d 8 (by decide)
theorem rmField_place (f : BitVec 2) : rmField (f.setWidth 64 <<< 4) = f := extractLsb'_field f 4 (by decide)
theorem rbField_place (k : BitVec 7) : rbField (k.setWidth 64 <<< 24) = k := extractLsb'_field k 24 (by decide)

/-- SUBB's two fields do not overlap: DATA ends where NB begins. -/
theorem dataField_subb (d : Byte) (n : BitVec 3) : dataField (Instr.subb d n).fieldBits = d := by
  apply extract_eq_of_bits
  intro j hj
  rw [Instr.fieldBits, BitVec.getLsbD_or, getLsbD_field, getLsbD_field, decide_eq_false (show ¬ 16 ≤ 8 + j by omega)]
  simp [show 8 + j < 64 by omega]

theorem nbField_subb (d : Byte) (n : BitVec 3) : nbField (Instr.subb d n).fieldBits = n := by
  apply extract_eq_of_bits
  intro j hj
  rw [Instr.fieldBits, BitVec.getLsbD_or, getLsbD_field, getLsbD_field, BitVec.getLsbD_of_ge d (16 + j - 8) (by omega)]
  simp [show 16 + j < 64 by omega]

theorem toField_ne_three {m : ReflMode} (h : m.legal = true) : m.toField ≠ 3 := by
  cases m with
  | none => decide
  | refl => decide
  | auto => decide
  | reserved => cases h

/-- Settles O19: the word of a command has its opcode and no reserved bit, its fields read back from their places, and
legal ones pass the field checks. -/
theorem decodeOfEncode : Obligations.DecodeOfEncode := by
  intro i hwf
  have hop := opField_encode i
  rw [decode_encode_eq_decodeFields]
  cases i with
  | nop => exact decodeFields_nop hop
  | seed => exact decodeFields_seed hop
  | build => exact decodeFields_build hop
  | bitb d => rw [decodeFields_bitb hop, dataField_encode, Instr.fieldBits, dataField_place]
  | tabb d => rw [decodeFields_tabb hop, dataField_encode, Instr.fieldBits, dataField_place]
  | trd d => rw [decodeFields_trd hop, dataField_encode, Instr.fieldBits, dataField_place]
  | subb d n =>
    rw [decodeFields_subb hop, nbField_encode, dataField_encode, nbField_subb, dataField_subb,
      if_neg (bne_iff_ne.1 hwf)]
  | fin m =>
    rw [decodeFields_fin hop, rmField_encode, Instr.fieldBits, rmField_place, if_neg (toField_ne_three hwf),
      ReflMode.ofField_toField]
  | unfin m =>
    rw [decodeFields_unfin hop, rmField_encode, Instr.fieldBits, rmField_place, if_neg (toField_ne_three hwf),
      ReflMode.ofField_toField]
  | refl k =>
    rw [decodeFields_refl hop, rbField_encode, Instr.fieldBits, rbField_place,
      if_neg (Nat.not_lt.2 (of_decide_eq_true hwf))]

/-! ### What a word that decodes holds (30_encoding.md section 3) -/

/-- A field read out of a word and put back at its place: the word under the field's mask. -/
theorem extractLsb'_in_place (w : Word) (k n : Nat) :
    ((w.extractLsb' k n).setWidth 64 : Word) <<< k = w &&& ((BitVec.allOnes n).setWidth 64 <<< k) := by
  apply BitVec.eq_of_getLsbD_eq
  intro j hj
  rw [BitVec.getLsbD_and, getLsbD_field, getLsbD_field, BitVec.getLsbD_extractLsb', BitVec.getLsbD_allOnes,
    decide_eq_true hj]
  by_cases hk : k ≤ j
  · rw [Nat.add_sub_cancel' hk, Bool.and_comm _ (w.getLsbD j), Bool.and_left_comm]
  · rw [decide_eq_false hk]
    simp

theorem opField_in_place (w : Word) : ((opField w).setWidth 64 : Word) = w &&& 0xF := by
  simpa [opField] using extractLsb'_in_place w 0 4

theorem dataField_in_place (w : Word) : ((dataField w).setWidth 64 : Word) <<< 8 = w &&& 0xFF00 :=
  extractLsb'_in_place w 8 8

theorem nbField_in_place (w : Word) : ((nbField w).setWidth 64 : Word) <<< 16 = w &&& 0x70000 :=
  extractLsb'_in_place w 16 3

theorem rmField_in_place (w : Word) : ((rmField w).setWidth 64 : Word) <<< 4 = w &&& 0x30 :=
  extractLsb'_in_place w 4 2

theorem rbField_in_place (w : Word) : ((rbField w).setWidth 64 : Word) <<< 24 = w &&& 0x7F000000 :=
  extractLsb'_in_place w 24 7

theorem toField_ofField (f : BitVec 2) : (ReflMode.ofField f).toField = f := by
  revert f; decide

/-- The mode of FIN and UNFIN that a word names, put back at its place. -/
theorem mode_in_place (w : Word) :
    ((ReflMode.ofField (rmField w)).toField.setWidth 64 : Word) <<< 4 = w &&& 0x30 := by
  rw [toField_ofField, rmField_in_place]

/-- The command read from a word has the word's opcode, and `m`, the places of its fields, covers its used bits above
the opcode: there it has the word's bits. -/
theorem fields_of_decodeFields {w : Word} {i : Instr} (h : decodeFields w = .ok i) :
    opField w = i.opcode ∧ ∃ m, i.usedBits = 0xF ||| m ∧ i.fieldBits = w &&& m := by
  unfold decodeFields at h
  split at h
  case h_1 hop => cases h; exact ⟨BitVec.eq_of_toNat_eq hop, 0, rfl, BitVec.and_zero.symm⟩
  case h_2 hop => cases h; exact ⟨BitVec.eq_of_toNat_eq hop, 0, rfl, BitVec.and_zero.symm⟩
  case h_3 hop => cases h; exact ⟨BitVec.eq_of_toNat_eq hop, 0xFF00, rfl, dataField_in_place w⟩
  case h_4 hop => cases h; exact ⟨BitVec.eq_of_toNat_eq hop, 0xFF00, rfl, dataField_in_place w⟩
  case h_5 hop => -- SUBB
    split_ifs at h
    cases h
    refine ⟨BitVec.eq_of_toNat_eq hop, 0xFF00 ||| 0x70000, rfl, ?_⟩
    rw [Instr.fieldBits, dataField_in_place, nbField_in_place, BitVec.and_or_distrib_left]
  case h_6 hop => split_ifs at h; cases h; exact ⟨BitVec.eq_of_toNat_eq hop, 0x30, rfl, mode_in_place w⟩
  case h_7 hop => split_ifs at h; cases h; exact ⟨BitVec.eq_of_toNat_eq hop, 0x30, rfl, mode_in_place w⟩
  case h_8 hop => split_ifs at h; cases h; exact ⟨BitVec.eq_of_toNat_eq hop, 0x7F000000, rfl, rbField_in_place w⟩
  case h_9 hop => cases h; exact ⟨BitVec.eq_of_toNat_eq hop, 0, rfl, BitVec.and_zero.symm⟩
  case h_10 hop => cases h; exact ⟨BitVec.eq_of_toNat_eq hop, 0xFF00, rfl, dataField_in_place w⟩
  case h_11 => cases h

/-- Settles O21: the decoder's first checks clear the reserved bits, and `fields_of_decodeFields` gives the others. -/
theorem decodedWordsMatchTheTable : Obligations.DecodedWordsMatchTheTable := by
  intro w i hdec
  refine ⟨wf_of_decode hdec, ?_⟩
  unfold decode at hdec
  split_ifs at hdec with _ hrsv
  obtain ⟨hop, m, hused, hfields⟩ := fields_of_decodeFields hdec
  have hopcode : (i.opcode.setWidth 64 : Word) = w &&& 0xF := by rw [← hop, opField_in_place]
  constructor
  · rw [show (0xFFFFFFFF80F800CF : Word) = rsvMask ||| 0xF from rfl, BitVec.and_or_distrib_left, not_not.1 hrsv,
      hopcode]
    exact BitVec.zero_or
  · rw [encode, hopcode, hfields, hused, BitVec.and_or_distrib_left]

/-- Settles O22: each word decoded by evaluation. -/
theorem decodeOfExampleWords : Obligations.DecodeOfExampleWords := by
  unfold Obligations.DecodeOfExampleWords
  decide

/-- Settles O9: the word in front of the pending events is the one `decodeTableWord` decodes. -/
theorem fetchWordRunsNext : Obligations.FetchWordRunsNext := by
  intro s nbits w i h
  unfold decodeTableWord at h
  split_ifs at h
  cases hdec : decode (BitVec.ofNat 64 (w % 2 ^ nbits)) with
  | error e => rw [hdec] at h; cases h
  | ok i' =>
    rw [hdec] at h
    cases h
    exact runCommand_of_ok _ s i hdec

/-! ### What one step can do to the block -/

/-- Everything one event can make of a block `a`: the effects of the commands, of the host writes, and of reset. -/
inductive BlockStep {S : Nat} (W : Nat) (a : Block S) : Block S → Prop
  | kept : BlockStep W a a
  | setRem (v : BitVec S) : BlockStep W a (a.setRem v)
  | setResult (v : Word) : BlockStep W a (a.setResult v)
  | built : BlockStep W a (a.setTable (buildTable W a.refin a.poly))
  | raised (e : CmdError) : BlockStep W a (a.raise e)
  | wroteCfg (v : Word) : BlockStep W a (a.writeCfg v)
  | wrotePoly (v : Word) : BlockStep W a (a.writePoly v)
  | wroteInit (v : Word) : BlockStep W a (a.writeInit v)
  | wroteXorout (v : Word) : BlockStep W a (a.writeXorout v)
  | wroteOpnd (v : Word) : BlockStep W a (a.writeOpnd v)
  | wroteStatus (v : Word) : BlockStep W a (a.writeStatus v)
  | wasReset : BlockStep W a (Block.reset S)

theorem exec_blockStep (i : Instr) (s : State) :
    ∃ b, exec i s = .next (s.withBlock b) ∧ BlockStep s.inst.W s.block b := by
  obtain ⟨b, hexec, rfl | ⟨v, rfl⟩ | ⟨v, rfl⟩ | rfl | ⟨e, rfl⟩⟩ := exec_cases i s
  · exact ⟨_, hexec, .kept⟩
  · exact ⟨_, hexec, .setRem v⟩
  · exact ⟨_, hexec, .setResult v⟩
  · exact ⟨_, hexec, .built⟩
  · exact ⟨_, hexec, .raised e⟩

theorem runCommand_blockStep (w : Word) (s : State) :
    ∃ b, runCommand w s = .next (s.withBlock b) ∧ BlockStep s.inst.W s.block b := by
  cases hdec : decode w with
  | ok i => rw [runCommand_of_ok w s i hdec]; exact exec_blockStep i s
  | error e => exact ⟨_, runCommand_of_error w s e hdec, .raised e⟩

theorem regWrite_blockStep (i : BitVec 4) (v : Word) (s : State) :
    ∃ b, regWrite i v s = .next (s.withBlock b) ∧ BlockStep s.inst.W s.block b := by
  obtain ⟨-, h⟩ | ⟨-, b, h, ⟨rfl, -⟩ | ⟨-, rfl⟩ | ⟨-, rfl⟩ | ⟨-, rfl⟩ | ⟨-, rfl⟩ | ⟨-, rfl⟩ | ⟨-, rfl⟩ | ⟨-, rfl⟩⟩ :=
    regWrite_cases i v s
  · rw [h]; exact runCommand_blockStep v s
  · exact ⟨_, h, .kept⟩
  · exact ⟨_, h, .wroteCfg v⟩
  · exact ⟨_, h, .wrotePoly v⟩
  · exact ⟨_, h, .wroteInit v⟩
  · exact ⟨_, h, .wroteXorout v⟩
  · exact ⟨_, h, .setRem _⟩
  · exact ⟨_, h, .wroteOpnd v⟩
  · exact ⟨_, h, .wroteStatus v⟩

theorem hostEvent_blockStep (e : HostEvent) (s : State) :
    ∃ b rs, hostEvent e s = .next ⟨s.inst, b, s.pending, rs⟩ ∧ BlockStep s.inst.W s.block b := by
  cases e with
  | read i => exact ⟨_, _, rfl, .kept⟩
  | reset => exact ⟨_, _, rfl, .wasReset⟩
  | write i v =>
    obtain ⟨b, h, hb⟩ := regWrite_blockStep i v s
    exact ⟨b, _, h, hb⟩

theorem step_blockStep (s : State) :
    ∃ b evs rs, step s = .next ⟨s.inst, b, evs, rs⟩ ∧ BlockStep s.inst.W s.block b := by
  cases hp : s.pending with
  | nil => exact ⟨_, _, _, step_of_pending_nil s hp, .kept⟩
  | cons e rest =>
    obtain ⟨b, rs, h, hb⟩ := hostEvent_blockStep e (s.issue rest)
    exact ⟨b, rest, rs, (step_of_pending_cons s e rest hp).trans h, hb⟩

/-! ### The invariant (10_state.md R31, R33) -/

/-- A valid table stays the table of the current POLY and REFIN: their writes clear TVALID. -/
theorem BlockStep.tableMatches {S W : Nat} {a b : Block S} (h : BlockStep W a b) (ha : a.TableMatches W) :
    b.TableMatches W := by
  cases h with
  | kept => exact ha
  | setRem v => exact ha
  | setResult v => exact ha
  | built => exact fun _ => rfl
  | raised e => simpa [Block.TableMatches] using ha
  | wroteCfg v => exact fun h => Bool.noConfusion h
  | wrotePoly v => exact fun h => Bool.noConfusion h
  | wroteInit v => exact ha
  | wroteXorout v => exact ha
  | wroteOpnd v => exact ha
  | wroteStatus v => simpa [Block.TableMatches] using ha
  | wasReset => exact fun h => Bool.noConfusion h

theorem writeStatus_causeMatches {S : Nat} {a : Block S} (v : Word) (ha : a.CauseMatches) :
    (a.writeStatus v).CauseMatches := by
  obtain ⟨hle, hiff⟩ := ha
  unfold Block.CauseMatches
  rw [writeStatus_cause, writeStatus_noError]
  cases hno : (a.clearErrorBits v).noError with
  | true => simp
  | false =>
    have hne : a.noError = false := by
      simp only [Block.noError, clearErrorBits_eOp, clearErrorBits_eRsv, clearErrorBits_eTab, clearErrorBits_eNb,
        clearErrorBits_eRb] at hno ⊢
      grind
    simpa [hne] using And.intro hle hiff

/-- A rejection writes a code of an error bit it sets; a STATUS write that clears the last bit clears CAUSE. -/
theorem BlockStep.causeMatches {S W : Nat} {a b : Block S} (h : BlockStep W a b) (ha : a.CauseMatches) :
    b.CauseMatches := by
  cases h with
  | kept => exact ha
  | setRem v => exact ha
  | setResult v => exact ha
  | built => exact ha
  | raised e => simp [Block.CauseMatches, errorCode_le]
  | wroteCfg v => exact ha
  | wrotePoly v => exact ha
  | wroteInit v => exact ha
  | wroteXorout v => exact ha
  | wroteOpnd v => exact ha
  | wroteStatus v => exact writeStatus_causeMatches v ha
  | wasReset => exact ⟨Nat.zero_le 5, fun _ => rfl, fun _ => rfl⟩

/-- Settles O4: one step makes of the block what `BlockStep` lists, and each of those keeps both parts of the
invariant. -/
theorem stepKeepsInvariant : Obligations.StepKeepsInvariant := by
  intro s t ⟨htable, hcause⟩ hstep
  obtain ⟨b, evs, rs, h, hb⟩ := step_blockStep s
  cases h.symm.trans hstep
  exact ⟨hb.tableMatches htable, hb.causeMatches hcause⟩

/-- Settles O3: TVALID, the error bits and CAUSE are 0. -/
theorem invariantHoldsAtReset : Obligations.InvariantHoldsAtReset :=
  have h (c : Instance) : (State.resetOf c).Inv :=
    ⟨fun h => Bool.noConfusion h, Nat.zero_le 5, fun _ => rfl, fun _ => rfl⟩
  ⟨h, h Instance.default32⟩

/-! ### Every event completes -/

/-- Settles O5: `hostEvent_next` for the next event, and the idle step for none. -/
theorem everyAccessCompletesInItsStep : Obligations.EveryAccessCompletesInItsStep := by
  refine ⟨fun s e rest => ?_, fun s => step_of_pending_nil _ rfl⟩
  obtain ⟨b, rs, h⟩ := hostEvent_next e (s.issue rest)
  exact ⟨_, (step_issue_cons s e rest).trans h, rfl, rfl⟩

/-- Each step takes one event from the pending ones. -/
theorem exists_run_of_le (k : Nat) (s : State) (hk : k ≤ s.pending.length) :
    ∃ t, run k s = .next t ∧ t.pending = s.pending.drop k := by
  induction k generalizing s with
  | zero => exact ⟨s, rfl, rfl⟩
  | succ k ih =>
    cases hp : s.pending with
    | nil => simp [hp] at hk
    | cons e rest =>
      obtain ⟨b, rs, h⟩ := hostEvent_next e (s.issue rest)
      obtain ⟨t, hrun, ht⟩ := ih ⟨s.inst, b, rest, rs⟩ (by simpa [hp] using hk)
      exact ⟨t, (run_succ_of_step k s _ ((step_of_pending_cons s e rest hp).trans h)).trans hrun, ht⟩

/-- Settles O6: `exists_run_of_le`, by induction on the number of steps. -/
theorem hostProgramsEnd : Obligations.HostProgramsEnd := by
  intro s k hk
  obtain ⟨t, hrun, ht⟩ := exists_run_of_le k s hk
  refine ⟨t, hrun, ht, ?_⟩
  rw [ht, List.drop_eq_nil_iff]
  omega

/-! ### The table is hidden while TVALID is 0 (10_state.md section 6) -/

theorem regRead_withTable (i : BitVec 4) (s : State) (T : Table s.inst.S) :
    regRead i (s.withBlock { s.block with table := T }) = regRead i s := by
  unfold regRead
  cases portReg i <;> rfl

theorem raise_withTable {S : Nat} (b : Block S) (T : Table S) (e : CmdError) :
    Block.raise { b with table := T } e = { b.raise e with table := T } := by
  cases e <;> rfl

/-- The two ways of R33: CAUSE is cleared with the last error bit, and kept otherwise. -/
theorem writeStatus_of_noError {S : Nat} {b : Block S} {v : Word} (h : (b.clearErrorBits v).noError = true) :
    b.writeStatus v = { b.clearErrorBits v with cause := 0 } :=
  if_pos h

theorem writeStatus_of_error {S : Nat} {b : Block S} {v : Word} (h : (b.clearErrorBits v).noError = false) :
    b.writeStatus v = b.clearErrorBits v :=
  if_neg (ne_true_of_eq_false h)

theorem writeStatus_withTable {S : Nat} (b : Block S) (T : Table S) (v : Word) :
    Block.writeStatus { b with table := T } v = { b.writeStatus v with table := T } := by
  cases h : (b.clearErrorBits v).noError with
  | true => rw [writeStatus_of_noError h]; exact if_pos h
  | false => rw [writeStatus_of_error h]; exact if_neg (ne_true_of_eq_false h)

/-- `f` gives, from `s` and from `s` with the table `T`, states that a host cannot tell apart. -/
def Hides (f : State → Host.Outcome State Fault Refusal) (s : State) (T : Table s.inst.S) : Prop :=
  ∃ (c d : Block s.inst.S) (rs : List Word), f s = .next ⟨s.inst, c, s.pending, rs⟩ ∧
    f (s.withBlock { s.block with table := T }) = .next ⟨s.inst, d, s.pending, rs⟩ ∧ c.SameButHiddenTable d

section
variable {s : State} (T : Table s.inst.S) (h : s.block.tvalid = false)
include h

/-- A next state with TVALID as it was, and with the table `T` the same but for that table. -/
theorem hides_of_next {f : State → Host.Outcome State Fault Refusal} (c : Block s.inst.S) (rs : List Word)
    (hf : f s = .next ⟨s.inst, c, s.pending, rs⟩)
    (hfT : f (s.withBlock { s.block with table := T }) = .next ⟨s.inst, { c with table := T }, s.pending, rs⟩)
    (htv : c.tvalid = s.block.tvalid) : Hides f s T :=
  ⟨c, _, rs, hf, hfT, rfl, fun hc => by rw [htv, h] at hc; cases hc⟩

theorem hides_of_reject {f : State → Host.Outcome State Fault Refusal} (e : CmdError)
    (hf : f s = .next (reject e s))
    (hfT : f (s.withBlock { s.block with table := T }) =
      .next (reject e (s.withBlock { s.block with table := T }))) : Hides f s T := by
  refine hides_of_next T h (s.block.raise e) s.replies hf ?_ (raise_tvalid _ e)
  rw [hfT, reject_eq, withBlock_block, raise_withTable]

/-- TABB and TRD are rejected, BUILD writes the same table over both, and no other command looks at the table. -/
theorem hides_exec (i : Instr) : Hides (exec i) s T := by
  cases i with
  | nop => exact hides_of_next T h s.block s.replies rfl rfl rfl
  | seed => exact hides_of_next T h (s.block.setRem _) s.replies rfl rfl rfl
  | bitb d => exact hides_of_next T h (s.block.setRem _) s.replies rfl rfl rfl
  | tabb d => exact hides_of_reject T h .eTab (exec_tabb_of_not_tvalid d s h) (exec_tabb_of_not_tvalid d _ h)
  | trd d => exact hides_of_reject T h .eTab (exec_trd_of_not_tvalid d s h) (exec_trd_of_not_tvalid d _ h)
  | build => exact ⟨_, _, _, rfl, rfl, rfl, fun _ => rfl⟩
  | subb d n =>
    by_cases hn : n = 0
    · subst hn
      exact hides_of_reject T h .eNb rfl rfl
    · exact hides_of_next T h (s.block.setRem _) s.replies (exec_subb_of_ne_zero d n s hn)
        (exec_subb_of_ne_zero d n _ hn) rfl
  | refl k =>
    by_cases hk : k.toNat ≤ 64
    · exact hides_of_next T h (s.block.setResult _) s.replies (exec_refl_of_le k s hk) (exec_refl_of_le k _ hk) rfl
    · exact hides_of_reject T h .eRb (if_pos (Nat.lt_of_not_le hk)) (if_pos (Nat.lt_of_not_le hk))
  | fin m =>
    cases m with
    | reserved => exact hides_of_reject T h .eRsv rfl rfl
    | none => exact hides_of_next T h (s.block.setResult _) s.replies rfl rfl rfl
    | refl => exact hides_of_next T h (s.block.setResult _) s.replies rfl rfl rfl
    | auto => exact hides_of_next T h (s.block.setResult _) s.replies rfl rfl rfl
  | unfin m =>
    cases m with
    | reserved => exact hides_of_reject T h .eRsv rfl rfl
    | none => exact hides_of_next T h (s.block.setRem _) s.replies rfl rfl rfl
    | refl => exact hides_of_next T h (s.block.setRem _) s.replies rfl rfl rfl
    | auto => exact hides_of_next T h (s.block.setRem _) s.replies rfl rfl rfl

theorem hides_runCommand (w : Word) : Hides (runCommand w) s T := by
  cases hdec : decode w with
  | error e => exact hides_of_reject T h e (runCommand_of_error w s e hdec) (runCommand_of_error w _ e hdec)
  | ok i =>
    rw [show runCommand w = exec i from funext fun s => runCommand_of_ok w s i hdec]
    exact hides_exec T h i

/-- A host write other than a command stores its value whatever the table, and at most clears TVALID. -/
theorem hides_regWrite (i : BitVec 4) (v : Word) : Hides (regWrite i v) s T := by
  unfold regWrite
  cases portReg i with
  | cmd => exact hides_runCommand T h v
  | id => exact hides_of_next T h s.block s.replies rfl rfl rfl
  | result => exact hides_of_next T h s.block s.replies rfl rfl rfl
  | reserved => exact hides_of_next T h s.block s.replies rfl rfl rfl
  | cfg => exact hides_of_next T h (s.block.writeCfg v) s.replies rfl rfl h.symm
  | poly => exact hides_of_next T h (s.block.writePoly v) s.replies rfl rfl h.symm
  | init => exact hides_of_next T h (s.block.writeInit v) s.replies rfl rfl rfl
  | xorout => exact hides_of_next T h (s.block.writeXorout v) s.replies rfl rfl rfl
  | rem => exact hides_of_next T h (s.block.writeRem v) s.replies rfl rfl rfl
  | opnd => exact hides_of_next T h (s.block.writeOpnd v) s.replies rfl rfl rfl
  | status =>
    refine hides_of_next T h (s.block.writeStatus v) s.replies rfl ?_ (writeStatus_tvalid _ v)
    rw [withBlock_block, writeStatus_withTable]

theorem hides_hostEvent (e : HostEvent) : Hides (hostEvent e) s T := by
  cases e with
  | read i =>
    refine hides_of_next T h s.block (s.replies ++ [regRead i s]) rfl ?_ rfl
    rw [hostEvent, regRead_withTable]
  | write i v => exact hides_regWrite T h i v
  | reset => exact ⟨_, _, _, rfl, rfl, rfl, fun hc => Bool.noConfusion hc⟩

theorem hides_step : ∃ (c d : Block s.inst.S) (evs : List HostEvent) (rs : List Word),
    step s = .next ⟨s.inst, c, evs, rs⟩ ∧
      step (s.withBlock { s.block with table := T }) = .next ⟨s.inst, d, evs, rs⟩ ∧ c.SameButHiddenTable d := by
  cases hp : s.pending with
  | nil =>
    exact ⟨_, _, _, _, step_of_pending_nil s hp, step_of_pending_nil _ hp, rfl, fun hc => by rw [h] at hc; cases hc⟩
  | cons e rest =>
    obtain ⟨c, d, rs, hc, hd, hcd⟩ := hides_hostEvent (s := s.issue rest) T h e
    exact ⟨c, d, rest, rs, (step_of_pending_cons s e rest hp).trans hc,
      (step_of_pending_cons (s.withBlock { s.block with table := T }) e rest hp).trans hd, hcd⟩

end

/-- Settles O7: while TVALID is 1 the two states are equal; while it is 0 every step hides the table. -/
theorem hiddenTableIsNeverObserved : Obligations.HiddenTableIsNeverObserved := by
  intro s b ⟨hrest, htable⟩
  cases htv : s.block.tvalid with
  | true =>
    have hb : b = s.block := by rw [← hrest, ← htable htv]
    obtain ⟨c, evs, rs, hstep, -⟩ := step_blockStep s
    exact ⟨c, c, evs, rs, hstep, hb ▸ hstep, rfl, fun _ => rfl⟩
  | false =>
    rw [← hrest]
    exact hides_step b.table htv

/-! ### What the host reads (10_state.md R21 to R30, R33) -/

/-- The two bytes of ID do not overlap: `W` is at most 64. -/
theorem toNat_idWord (c : Instance) : (idWord c).toNat = c.S * 256 + c.W := by
  obtain ⟨-, hS⟩ := storage_bounds c
  have hW : c.W < 2 ^ 8 := by have := c.W_le_S; omega
  rw [idWord, BitVec.toNat_or, BitVec.toNat_shiftLeft, BitVec.toNat_ofNat, BitVec.toNat_ofNat,
    Nat.mod_eq_of_lt (show c.S < 2 ^ 64 by omega), Nat.mod_eq_of_lt (show c.W < 2 ^ 64 by omega), Nat.shiftLeft_eq,
    Nat.mod_eq_of_lt (show c.S * 2 ^ 8 < 2 ^ 64 by omega), Nat.mul_comm, ← Nat.two_pow_add_eq_or_of_lt hW, Nat.mul_comm]

/-- A flag put into a word at a place with nothing there or below adds its weight. -/
theorem toNat_or_flagWord {x : Word} (f : Bool) (k : Nat) (hk : k < 64) (hx : x.toNat % 2 ^ (k + 1) = 0) :
    (x ||| flagWord f <<< k).toNat = x.toNat + f.toNat * 2 ^ k := by
  obtain ⟨a, ha⟩ := Nat.dvd_of_mod_eq_zero hx
  cases f with
  | false => simp [flagWord]
  | true =>
    have hone : (flagWord true <<< k).toNat = 2 ^ k := by
      rw [flagWord, if_pos rfl, BitVec.toNat_shiftLeft, Nat.shiftLeft_eq,
        Nat.mod_eq_of_lt (by simpa using Nat.pow_lt_pow_right (by decide) hk)]
      exact Nat.one_mul _
    have hlow : 2 ^ k < 2 ^ (k + 1) := Nat.pow_lt_pow_right (by decide) (Nat.lt_succ_self k)
    rw [BitVec.toNat_or, hone, ha, ← Nat.two_pow_add_eq_or_of_lt hlow, Bool.toNat_true, Nat.one_mul]

/-- STATUS as a number, each flag standing below what is already there. -/
theorem toNat_statusWord {S : Nat} (b : Block S) : b.statusWord.toNat =
    b.cause.toNat * 256 + b.eRb.toNat * 32 + b.eNb.toNat * 16 + b.eTab.toNat * 8 + b.eRsv.toNat * 4 +
      b.eOp.toNat * 2 + b.tvalid.toNat := by
  have hcause : (b.cause.setWidth 64 <<< 8 : Word).toNat = b.cause.toNat * 256 := by
    rw [BitVec.toNat_shiftLeft, BitVec.toNat_setWidth, Nat.shiftLeft_eq]
    omega
  have hrb := toNat_or_flagWord b.eRb 5 (by decide) (by rw [hcause]; omega)
  have hnb := toNat_or_flagWord b.eNb 4 (by decide) (by rw [hrb, hcause]; omega)
  have htab := toNat_or_flagWord b.eTab 3 (by decide) (by rw [hnb, hrb, hcause]; omega)
  have hrsv := toNat_or_flagWord b.eRsv 2 (by decide) (by rw [htab, hnb, hrb, hcause]; omega)
  have hop := toNat_or_flagWord b.eOp 1 (by decide) (by rw [hrsv, htab, hnb, hrb, hcause]; omega)
  have htv := toNat_or_flagWord b.tvalid 0 (by decide) (by rw [hop, hrsv, htab, hnb, hrb, hcause]; omega)
  rw [BitVec.shiftLeft_zero] at htv
  rw [Block.statusWord, htv, hop, hrsv, htab, hnb, hrb, hcause]
  omega

theorem index_cases (i : BitVec 4) : i = 0 ∨ i = 1 ∨ i = 2 ∨ i = 3 ∨ i = 4 ∨ i = 5 ∨ i = 6 ∨ i = 7 ∨ i = 8 ∨ i = 9 ∨
    10 ≤ i.toNat := by
  revert i; decide

/-- A register of at most 64 bits is read with its value. -/
theorem toNat_zext {n : Nat} (v : BitVec n) (hn : n ≤ 64) : (v.setWidth 64).toNat = v.toNat := by
  rw [BitVec.toNat_setWidth, Nat.mod_eq_of_lt (v.isLt.trans_le (Nat.pow_le_pow_right (by decide) hn))]

/-- Settles O11: a read is `step_read`, and its value is read off `regRead`, index by index. -/
theorem readValues : Obligations.ReadValues := by
  refine fun s i rest => ⟨regRead i s, step_read i s rest, ?_⟩
  have hS : s.inst.S ≤ 64 := (storage_bounds s.inst).2
  obtain rfl | rfl | rfl | rfl | rfl | rfl | rfl | rfl | rfl | rfl | hi := index_cases i
  · exact toNat_idWord s.inst
  · exact toNat_zext s.block.cfg (by decide)
  · exact toNat_zext s.block.poly hS
  · exact toNat_zext s.block.init hS
  · exact toNat_zext s.block.xorout hS
  · exact toNat_zext s.block.rem hS
  · rfl
  · rfl
  · rfl
  · exact toNat_statusWord s.block
  · obtain ⟨n, hn⟩ := Nat.exists_eq_add_of_le' hi
    rw [regRead_of_reserved (portReg_of_ten_le hi), hn]
    rfl

/-! ### Reset (10_state.md R40) -/

theorem reset_inResetCondition (S : Nat) : (Block.reset S).InResetCondition :=
  ⟨rfl, rfl, rfl, rfl, rfl, rfl, rfl, rfl, rfl, rfl, rfl, rfl, rfl, rfl⟩

/-- Settles O2: every field of `Block.reset` is 0, and ID is the instance's. -/
theorem resetLeavesZeros : Obligations.ResetLeavesZeros :=
  ⟨fun c => ⟨reset_inResetCondition c.S, toNat_idWord c⟩,
    fun s _ => ⟨_, rfl, reset_inResetCondition s.inst.S, toNat_idWord s.inst, rfl, rfl, rfl⟩⟩

/-! ### Host writes (10_state.md R22 to R27, R33) -/

/-- Settles O13: each write stores the low bits of the value, which as a number are the value's remainder. -/
theorem registerWriteEffects : Obligations.RegisterWriteEffects := by
  intro s rest v
  simp only [BitVec.ofNat_toNat]
  exact ⟨rfl, rfl, rfl, rfl, rfl, rfl⟩

theorem noError_eq_true_iff {S : Nat} {b : Block S} : b.noError = true ↔
    b.eOp = false ∧ b.eRsv = false ∧ b.eTab = false ∧ b.eNb = false ∧ b.eRb = false := by
  simp only [Block.noError, Bool.not_eq_true', Bool.or_eq_false_iff, and_assoc]

theorem noError_eq_false_iff {S : Nat} {b : Block S} : b.noError = false ↔
    b.eOp = true ∨ b.eRsv = true ∨ b.eTab = true ∨ b.eNb = true ∨ b.eRb = true := by
  simp only [Block.noError, Bool.not_eq_false', Bool.or_eq_true, or_assoc]

/-- Settles O15: the field lemmas of `writeStatus`, and its CAUSE by whether an error bit is left. -/
theorem statusWriteClears : Obligations.StatusWriteClears := by
  intro s rest v
  refine ⟨s.block.writeStatus v, rfl, writeStatus_eOp _ v, writeStatus_eRsv _ v, writeStatus_eTab _ v,
    writeStatus_eNb _ v, writeStatus_eRb _ v, ?_, ?_, writeStatus_cfg _ v, writeStatus_poly _ v, writeStatus_init _ v,
    writeStatus_xorout _ v, writeStatus_rem _ v, writeStatus_opnd _ v, writeStatus_result _ v, writeStatus_tvalid _ v,
    writeStatus_table _ v⟩
  · intro hclear
    rw [writeStatus_cause, ← writeStatus_noError, if_pos (noError_eq_true_iff.2 hclear)]
  · intro hset
    rw [writeStatus_cause, ← writeStatus_noError, if_neg (ne_true_of_eq_false (noError_eq_false_iff.2 hset))]

/-- The value CLRERR writes names all five error bits. -/
theorem clrerr_noError {S : Nat} (b : Block S) : (b.clearErrorBits 0x3E).noError = true := by
  simp [Block.noError]

/-- With no error bit set and CAUSE 0, STATUS is TVALID alone. -/
theorem statusWord_of_noError {S : Nat} {b : Block S} (hno : b.noError = true) (hcause : b.cause = 0#4) :
    b.statusWord = flagWord b.tvalid := by
  obtain ⟨h1, h2, h3, h4, h5⟩ := noError_eq_true_iff.1 hno
  simp [Block.statusWord, hcause, h1, h2, h3, h4, h5, flagWord]

/-- Settles O16: CLRERR is a STATUS write that leaves no error, and the read after it returns TVALID alone. -/
theorem clrErrClearsEveryError : Obligations.ClrErrClearsEveryError := by
  intro s rest
  have hno : (s.block.writeStatus 0x3E).noError = true := by rw [writeStatus_noError, clrerr_noError]
  have hcause : (s.block.writeStatus 0x3E).cause = 0#4 := by rw [writeStatus_cause, if_pos (clrerr_noError _)]
  have hrun := run_write_read (i := 9) (v := 0x3E) (s := s) (rest := rest) (b := s.block.writeStatus 0x3E) rfl
  refine ⟨_, hrun, hno, hcause, writeStatus_tvalid _ _, ?_⟩
  have hread : regRead 9 (s.withBlock (s.block.writeStatus 0x3E)) = flagWord s.block.tvalid := by
    rw [← writeStatus_tvalid s.block 0x3E]
    exact statusWord_of_noError hno hcause
  exact congrArg (s.replies ++ [·]) hread

/-! ### Which events change what (10_state.md R22 to R28, R31, R34) -/

/-- `BUILD` written to CMD: the event that sets TVALID. -/
@[simp] def SetsTvalid (e : HostEvent) : Prop := ∃ w, e = .write 8 w ∧ decode w = .ok .build

/-- The events that clear TVALID. -/
@[simp] def ClearsTvalid (e : HostEvent) : Prop := e = .reset ∨ ∃ v, e = .write 1 v ∨ e = .write 2 v

/-- What R31 says of one event that takes TVALID from `x` to `y`. -/
@[simp] def TvalidRule (e : HostEvent) (x y : Bool) : Prop :=
  (SetsTvalid e → y = true) ∧ (ClearsTvalid e → y = false) ∧ (¬ SetsTvalid e → ¬ ClearsTvalid e → y = x)

/-- What R22 to R28 and R34 say of one event that takes the block from `a` to `b`, and that the values read, `rs` and
then `rs'`, grow only by a read. -/
@[simp] def RegisterRules {S : Nat} (e : HostEvent) (a b : Block S) (rs rs' : List Word) : Prop :=
  (b.cfg ≠ a.cfg → e = .reset ∨ ∃ v, e = .write 1 v) ∧
  (b.poly ≠ a.poly → e = .reset ∨ ∃ v, e = .write 2 v) ∧
  (b.init ≠ a.init → e = .reset ∨ ∃ v, e = .write 3 v) ∧
  (b.xorout ≠ a.xorout → e = .reset ∨ ∃ v, e = .write 4 v) ∧
  (b.opnd ≠ a.opnd → e = .reset ∨ ∃ v, e = .write 6 v) ∧
  (b.rem ≠ a.rem → e = .reset ∨ (∃ v, e = .write 5 v) ∨
    ∃ w i, e = .write 8 w ∧ decode w = .ok i ∧
      (i = .seed ∨ (∃ d, i = .bitb d ∨ i = .tabb d) ∨ (∃ d n, i = .subb d n) ∨ ∃ m, i = .unfin m)) ∧
  (b.result ≠ a.result → e = .reset ∨
    ∃ w i, e = .write 8 w ∧ decode w = .ok i ∧ ((∃ m, i = .fin m) ∨ (∃ k, i = .refl k) ∨ ∃ d, i = .trd d)) ∧
  (b.table ≠ a.table → e = .reset ∨ ∃ w, e = .write 8 w ∧ decode w = .ok .build) ∧
  (rs' ≠ rs → ∃ i, e = .read i)

/-- A word written to CMD: a rejection changes neither TVALID nor a register, a command what `exec_writes` says. -/
theorem runCommand_rules (w : Word) (s : State) :
    ∃ b, runCommand w s = .next (s.withBlock b) ∧ TvalidRule (.write 8 w) s.block.tvalid b.tvalid ∧
      RegisterRules (.write 8 w) s.block b s.replies s.replies := by
  cases hdec : decode w with
  | error e =>
    refine ⟨_, runCommand_of_error w s e hdec, ?_, ?_⟩
    · simp [hdec]
    · simp
  | ok i =>
    obtain ⟨b, hexec, hcfg, hpoly, hinit, hxorout, hopnd, hrem, hresult, htable, hbuild, hother⟩ := exec_writes i s
    refine ⟨b, (runCommand_of_ok w s i hdec).trans hexec, ?_, ?_⟩
    · simpa [hdec] using And.intro hbuild hother
    · refine ⟨fun h => absurd hcfg h, fun h => absurd hpoly h, fun h => absurd hinit h, fun h => absurd hxorout h,
        fun h => absurd hopnd h, fun h => ?_, fun h => ?_, fun h => ?_, fun h => absurd rfl h⟩
      · exact .inr (.inr ⟨w, i, rfl, hdec, hrem h⟩)
      · exact .inr ⟨w, i, rfl, hdec, hresult h⟩
      · exact .inr ⟨w, rfl, htable h ▸ hdec⟩

/-- A host write: each storing register has one index, and a write to it changes that register. -/
theorem regWrite_rules (i : BitVec 4) (v : Word) (s : State) :
    ∃ b, regWrite i v s = .next (s.withBlock b) ∧ TvalidRule (.write i v) s.block.tvalid b.tvalid ∧
      RegisterRules (.write i v) s.block b s.replies s.replies := by
  obtain ⟨hcfg, hpoly, hinit, hxorout, hrem, hopnd, hcmd, hstatus⟩ := portReg_eq_iff i
  obtain ⟨hi, h⟩ | ⟨hi', b, h, hb⟩ := regWrite_cases i v s
  · obtain rfl := hcmd.1 hi
    obtain ⟨b, hrun, hrules⟩ := runCommand_rules v s
    exact ⟨b, h.trans hrun, hrules⟩
  · refine ⟨b, h, ?_⟩
    obtain ⟨rfl, hi⟩ | ⟨hi, rfl⟩ | ⟨hi, rfl⟩ | ⟨hi, rfl⟩ | ⟨hi, rfl⟩ | ⟨hi, rfl⟩ | ⟨hi, rfl⟩ | ⟨hi, rfl⟩ := hb
    · have h1 : i ≠ 1#4 := fun h => by simp [hcfg.2 h] at hi
      have h2 : i ≠ 2#4 := fun h => by simp [hpoly.2 h] at hi
      have h8 : i ≠ 8#4 := fun h => hi' (hcmd.2 h)
      simp [h1, h2, h8]
    · simp [hcfg.1 hi]
    · simp [hpoly.1 hi]
    · simp [hinit.1 hi]
    · simp [hxorout.1 hi]
    · simp [hrem.1 hi]
    · simp [hopnd.1 hi]
    · simp [hstatus.1 hi]

theorem hostEvent_rules (e : HostEvent) (s : State) :
    ∃ b rs, hostEvent e s = .next ⟨s.inst, b, s.pending, rs⟩ ∧ TvalidRule e s.block.tvalid b.tvalid ∧
      RegisterRules e s.block b s.replies rs := by
  cases e with
  | read i => exact ⟨_, _, rfl, by simp, by simp⟩
  | reset => exact ⟨_, _, rfl, by simp [Block.reset], by simp⟩
  | write i v =>
    obtain ⟨b, h, hrules⟩ := regWrite_rules i v s
    exact ⟨b, _, h, hrules⟩

/-- Settles O17: the first half of `hostEvent_rules`. -/
theorem onlyTheseEventsChangeTvalid : Obligations.OnlyTheseEventsChangeTvalid := by
  intro s t e rest hstep
  obtain ⟨b, rs, h, htv, -⟩ := hostEvent_rules e (s.issue rest)
  cases h.symm.trans hstep
  exact htv

/-- Settles O18: the second half of `hostEvent_rules`. -/
theorem onlyTheseEventsChangeRegisters : Obligations.OnlyTheseEventsChangeRegisters := by
  intro s t e rest hstep
  obtain ⟨b, rs, h, -, hregs⟩ := hostEvent_rules e (s.issue rest)
  cases h.symm.trans hstep
  exact ⟨b, rs, rfl, hregs⟩

/-! ### The commands and their frames -/

/-- Settles O26: the `raise` line of each meaning. -/
theorem illegalFieldsAreRejected : Obligations.IllegalFieldsAreRejected :=
  fun _ => ⟨fun _ => rfl, rfl, rfl, fun _ hk => if_pos hk⟩

/-- Settles O28: the meaning of SEED is that state. -/
theorem seedCopiesInit : Obligations.SeedCopiesInit := fun _ => rfl

/-- The engine's loop with its regimes as conditions on REFIN and `W` (41_bit_engine.md R100). -/
theorem foldBits_eq_ite {S : Nat} (W : Nat) (refin : Bool) (poly r : BitVec S) (b : Byte) (k : Nat) :
    foldBits W refin poly r b k =
      if refin then (stepR (reflect poly W))^[k] (r ^^^ b.setWidth S)
      else if 8 ≤ W then (stepL poly (W - 1))^[k] (r ^^^ b.setWidth S <<< (W - 8))
      else (stepL (poly <<< sh W) 7)^[k] (r <<< sh W ^^^ b.setWidth S) >>> sh W := by
  unfold foldBits regime
  cases refin with
  | true => rfl
  | false => by_cases h8 : 8 ≤ W <;> simp only [h8, if_true, if_false, Bool.false_eq_true]

/-- Settles O29: the loop of `bitByte` by its regimes, with `stepR` and `stepL` written out. -/
theorem bitbTakesEightSteps : Obligations.BitbTakesEightSteps := by
  intro s d W right left v
  have hv : bitByte W s.block.refin s.block.poly s.block.rem d = v := foldBits_eq_ite W _ _ _ d 8
  rw [← hv]
  rfl

theorem keepBits_eq_ite (W : Nat) (refin : Bool) (b : Byte) (n : Nat) :
    keepBits W refin b n = if refin then b &&& lowMask 8 n else b &&& topMask n := by
  unfold keepBits
  obtain ⟨rfl, hreg⟩ | ⟨rfl, -, hreg⟩ | ⟨rfl, -, hreg⟩ := regime_cases W refin <;> rw [hreg] <;> rfl

theorem subBits_eq_ite {S : Nat} (W : Nat) (refin : Bool) (poly r : BitVec S) (b : Byte) (n : Nat) :
    subBits W refin poly r b n =
      if refin then (stepR (reflect poly W))^[n] (r ^^^ (b &&& lowMask 8 n).setWidth S)
      else if 8 ≤ W then (stepL poly (W - 1))^[n] (r ^^^ (b &&& topMask n).setWidth S <<< (W - 8))
      else (stepL (poly <<< sh W) 7)^[n] (r <<< sh W ^^^ (b &&& topMask n).setWidth S) >>> sh W := by
  rw [subBits, keepBits_eq_ite, foldBits_eq_ite]
  cases refin <;> rfl

/-- Settles O30: the loop of `subBits` by its regimes. -/
theorem subbTakesNbSteps : Obligations.SubbTakesNbSteps := by
  intro s d nb hnb W n low top right left v
  have hv : subBits W s.block.refin s.block.poly s.block.rem d n = v := subBits_eq_ite W _ _ _ d n
  rw [exec_subb_of_ne_zero d nb s hnb, hv]
  rfl

/-- The lookup with its regimes as conditions on REFIN and `W`. -/
theorem tabByte_eq_ite {S : Nat} (W : Nat) (refin : Bool) (t : Table S) (r : BitVec S) (b : Byte) :
    tabByte W refin t r b =
      if refin then r >>> 8 ^^^ readTable t ((r ^^^ b.setWidth S).setWidth 8)
      else if 8 ≤ W then r <<< 8 ^^^ readTable t ((r >>> (W - 8) ^^^ b.setWidth S).setWidth 8)
      else readTable t ((r <<< sh W ^^^ b.setWidth S).setWidth 8) >>> sh W := by
  unfold tabByte tableIndex regime
  cases refin with
  | true => rfl
  | false => by_cases h8 : 8 ≤ W <;> simp only [h8, if_true, if_false, Bool.false_eq_true]

/-- Settles O31: the lookup of `tabByte` by its regimes. -/
theorem tabbTakesOneLookup : Obligations.TabbTakesOneLookup := by
  intro s d W T v
  refine ⟨fun htv => ?_, exec_tabb_of_not_tvalid d s⟩
  have hv : tabByte W s.block.refin s.block.table s.block.rem d = v := tabByte_eq_ite W _ _ _ d
  rw [exec_tabb_of_tvalid d s htv, hv]
  rfl

/-- Settles O32: TRD's two ways, by TVALID. -/
theorem trdReadsOneEntry : Obligations.TrdReadsOneEntry := by
  refine fun s d => ⟨fun htv => ?_, exec_trd_of_not_tvalid d s⟩
  rw [exec_trd_of_tvalid d s htv, BitVec.ofNat_toNat]
  rfl

/-- The commands of O37 write REM and nothing else. -/
theorem exec_eq_setRem {s : State} {i : Instr} (hwf : i.wf = true)
    (hi : i = .seed ∨ (∃ d, i = .bitb d) ∨ (∃ d, i = .tabb d ∧ s.block.tvalid = true) ∨ (∃ d n, i = .subb d n) ∨
      ∃ m, i = .unfin m) : ∃ v, exec i s = .next (s.withBlock (s.block.setRem v)) := by
  obtain rfl | ⟨d, rfl⟩ | ⟨d, rfl, htv⟩ | ⟨d, n, rfl⟩ | ⟨m, rfl⟩ := hi
  · exact ⟨_, rfl⟩
  · exact ⟨_, rfl⟩
  · exact ⟨_, exec_tabb_of_tvalid d s htv⟩
  · exact ⟨_, exec_subb_of_ne_zero d n s (bne_iff_ne.1 hwf)⟩
  · obtain ⟨R, hR⟩ := exists_effR_of_legal hwf s.block.refin s.block.refout
    exact ⟨_, exec_unfin_of_effR m s R hR⟩

/-- The commands of O38 but BUILD write RESULT and nothing else. -/
theorem exec_eq_setResult {s : State} {i : Instr} (hwf : i.wf = true)
    (hi : (∃ m, i = .fin m) ∨ (∃ k, i = .refl k) ∨ ∃ d, i = .trd d ∧ s.block.tvalid = true) :
    ∃ v, exec i s = .next (s.withBlock (s.block.setResult v)) := by
  obtain ⟨m, rfl⟩ | ⟨k, rfl⟩ | ⟨d, rfl, htv⟩ := hi
  · obtain ⟨R, hR⟩ := exists_effR_of_legal hwf s.block.refin s.block.refout
    exact ⟨_, exec_fin_of_effR m s R hR⟩
  · exact ⟨_, exec_refl_of_le k s (of_decide_eq_true hwf)⟩
  · exact ⟨_, exec_trd_of_tvalid d s htv⟩

/-- Settles O37: each of the commands is a `setRem`, which keeps every other field. -/
theorem frameOfRemCommands : Obligations.FrameOfRemCommands := by
  intro s t i hwf hi hexec
  obtain ⟨v, hv⟩ := exec_eq_setRem hwf hi
  cases hv.symm.trans hexec
  exact ⟨s.block.setRem v, rfl, rfl, rfl, rfl, rfl, rfl, rfl, rfl, rfl, rfl, rfl, rfl, rfl, rfl, fun _ => rfl⟩

/-- Settles O38: each of the commands is a `setResult`, BUILD a `setTable`; both keep every other field. -/
theorem frameOfResultCommandsAndBuild : Obligations.FrameOfResultCommandsAndBuild := by
  refine ⟨fun s t i hwf hi hexec => ?_, fun s t hexec => ?_⟩
  · obtain ⟨v, hv⟩ := exec_eq_setResult hwf hi
    cases hv.symm.trans hexec
    exact ⟨s.block.setResult v, rfl, rfl, rfl, rfl, rfl, rfl, rfl, rfl, rfl, rfl, rfl, rfl, rfl, rfl, fun _ => rfl⟩
  · cases hexec
    exact ⟨_, rfl, rfl, rfl, rfl, rfl, rfl, rfl, rfl, rfl, rfl, rfl, rfl, rfl, rfl⟩

/-! ### Reflect (40_reflect.md section 1) -/

theorem reflect_reflect {N n : Nat} (v : BitVec N) (hn : n ≤ N) : reflect (reflect v n) n = v &&& lowMask N n := by
  apply BitVec.eq_of_getLsbD_eq
  intro i hi
  rw [getLsbD_reflect _ n hn, getLsbD_reflect v n hn, BitVec.getLsbD_and, getLsbD_lowMask, decide_eq_true hi]
  by_cases h : i < n
  · simp [h, show n - 1 - i < n by omega, show n - 1 - (n - 1 - i) = i by omega]
  · simp [h]

theorem reflect_and_lowMask {N n : Nat} (v : BitVec N) (hn : n ≤ N) : reflect (v &&& lowMask N n) n = reflect v n := by
  apply BitVec.eq_of_getLsbD_eq
  intro i hi
  rw [getLsbD_reflect _ n hn, getLsbD_reflect v n hn, BitVec.getLsbD_and, getLsbD_lowMask]
  by_cases h : i < n
  · simp [h, show n - 1 - i < n by omega, show n - 1 - i < N by omega]
  · simp [h]

/-- Settles O39: the bound is `reflect_lt`, and the two equalities hold bit by bit. -/
theorem reflectLaws : Obligations.ReflectLaws :=
  fun _ v n hn => ⟨reflect_lt v n hn, reflect_reflect v hn, rfl, reflect_and_lowMask v hn⟩

/-! ### The bit engine (41_bit_engine.md section 6) -/

/-- Settles O40: the branchless steps are the steps, as functions. -/
theorem branchlessFormsAgree : Obligations.BranchlessFormsAgree := by
  intro c refin poly r b right left
  have hright : stepR (reflect poly c.W) = right := funext fun x => (stepRBranchless_eq _ x).symm
  have hleft (p : BitVec c.S) (t : Nat) : stepL p t = left p t := funext fun x => (stepLBranchless_eq p t x).symm
  rw [bitByte, foldBits_eq_ite, hright, hleft, hleft]
  rfl

theorem setWidth_eq_iff_mod {n : Nat} (a b : BitVec n) (W : Nat) :
    a.setWidth W = b.setWidth W ↔ a.toNat % 2 ^ W = b.toNat % 2 ^ W := by
  rw [← BitVec.toNat_inj, BitVec.toNat_setWidth, BitVec.toNat_setWidth]

theorem regime_of_refin (W : Nat) : regime W true = .reflected := rfl

theorem regime_ne_reflected (W : Nat) : regime W false ≠ .reflected := by
  unfold regime
  by_cases h : 8 ≤ W <;> simp [h]

theorem regime_of_lt {W : Nat} (h : W < 8) : regime W false = .narrow := by
  simp [regime, Nat.not_le.2 h]

/-- The remainder that NARROW shifts down again has at most `S - sh` bits. -/
theorem ushiftRight_sh_lt {S W : Nat} (x : BitVec S) (hW : W < 8) (hS : S = 8) : (x >>> sh W).toNat < 2 ^ W := by
  rw [BitVec.toNat_ushiftRight, Nat.shiftRight_eq_div_pow]
  apply Nat.div_lt_of_lt_mul
  calc x.toNat < 2 ^ S := x.isLt
    _ = 2 ^ sh W * 2 ^ W := by rw [← Nat.pow_add, hS, sh, Nat.sub_add_cancel hW.le]

/-- Settles O41: `foldBits_low`, `foldBits_reflected_lt`, and NARROW's last shift. -/
theorem upperBitsFlow : Obligations.UpperBitsFlow := by
  refine ⟨fun c poly r r' b hlow => ?_, fun c poly r b hr => ?_, fun c poly r b hW hS _ => ?_⟩
  · rw [← setWidth_eq_iff_mod] at hlow ⊢
    exact foldBits_low c.W false poly r r' b 8 c.W_pos c.W_le_S (storage_bounds c).1 (regime_ne_reflected c.W) hlow
  · exact foldBits_reflected_lt c.W true poly r b 8 c.W_le_S (regime_of_refin c.W) b.isLt hr
  · rw [bitByte, foldBits, regime_of_lt hW]
    exact ushiftRight_sh_lt _ hW hS

/-! ### SUBB (43_subbyte.md) -/

/-- A byte in two parts, in every regime. -/
theorem subBits_split (c : Instance) (refin : Bool) (poly r : BitVec c.S) (b : Byte) {k : Nat} (hk : k ≤ 8) :
    subBits c.W refin poly (subBits c.W refin poly r b k) (if refin then b >>> k else b <<< k) (8 - k) =
      bitByte c.W refin poly r b := by
  obtain ⟨rfl, hreg⟩ | ⟨rfl, h8, hreg⟩ | ⟨rfl, h8, hreg⟩ := regime_cases c.W refin
  · exact subBits_split_reflected c.W true poly r b k hk (storage_bounds c).1 hreg
  · exact subBits_split_wide c.W false poly r b k hk c.W_le_S h8 hreg
  · exact subBits_split_narrow c.W false poly r b k hk hreg

/-- The command word of a command with legal fields, written to CMD, runs it. -/
theorem step_commandEvent {i : Instr} (hwf : i.wf = true) (s : State) (rest : List HostEvent) :
    step (s.issue (commandEvent i :: rest)) = exec i (s.issue rest) :=
  runCommand_of_ok _ _ i (decodeOfEncode i hwf)

/-- A bit count from 1 to 7 as the NB field. -/
theorem nb_of_count {k : Nat} (h1 : 1 ≤ k) (h7 : k ≤ 7) :
    (BitVec.ofNat 3 k).toNat = k ∧ BitVec.ofNat 3 k ≠ 0 := by
  have htoNat : (BitVec.ofNat 3 k).toNat = k := by rw [BitVec.toNat_ofNat, Nat.mod_eq_of_lt (by omega)]
  refine ⟨htoNat, fun h => ?_⟩
  rw [h] at htoNat
  simp at htoNat
  omega

/-- SUBB of a legal count, written to CMD. -/
theorem step_subb (s : State) (rest : List HostEvent) (d : Byte) {k : Nat} (h1 : 1 ≤ k) (h7 : k ≤ 7) :
    step (s.issue (commandEvent (.subb d (BitVec.ofNat 3 k)) :: rest)) =
      .next ((s.withBlock (s.block.setRem
        (subBits s.inst.W s.block.refin s.block.poly s.block.rem d k))).issue rest) := by
  obtain ⟨htoNat, hne⟩ := nb_of_count h1 h7
  rw [step_commandEvent (i := .subb d _) (bne_iff_ne.2 hne), exec_subb_of_ne_zero d _ _ hne, htoNat]

/-- Settles O42: the two steps make REM what `subBits_split` says. -/
theorem splitByteIsWholeByte : Obligations.SplitByteIsWholeByte := by
  intro s rest d k h1 h7 d'
  rw [run_succ_of_step 1 _ _ (step_subb s _ d h1 h7),
    run_succ_of_step 0 _ _ (step_subb _ rest d' (by omega) (by omega)),
    run_succ_of_step 0 _ _ (step_commandEvent (i := .bitb d) rfl s rest)]
  exact congrArg (fun v => Host.Outcome.next ((s.withBlock (s.block.setRem v)).issue rest))
    (subBits_split s.inst s.block.refin s.block.poly s.block.rem d (show k ≤ 8 by omega))

/-- The bits SUBB does not process do not reach the engine. -/
theorem keepBits_congr (W : Nat) (refin : Bool) (d d' : Byte) {n : Nat}
    (h : ∀ i, i < n → if refin then d.getLsbD i = d'.getLsbD i else d.getLsbD (7 - i) = d'.getLsbD (7 - i)) :
    keepBits W refin d n = keepBits W refin d' n := by
  rw [keepBits_eq_ite, keepBits_eq_ite]
  cases refin with
  | true =>
    simp only [if_true] at h ⊢
    apply BitVec.eq_of_getLsbD_eq
    intro i hi
    rw [BitVec.getLsbD_and, BitVec.getLsbD_and, getLsbD_lowMask]
    by_cases hin : i < n
    · rw [h i hin]
    · simp [hin]
  | false =>
    simp only [Bool.false_eq_true, if_false] at h ⊢
    apply BitVec.eq_of_getLsbD_eq
    intro i hi
    rw [BitVec.getLsbD_and, BitVec.getLsbD_and, getLsbD_topMask]
    by_cases hin : 8 ≤ i + n
    · have := h (7 - i) (by omega)
      rw [show 7 - (7 - i) = i by omega] at this
      rw [this]
    · simp [hin]

/-- Settles O43: both bytes give the engine the same kept bits; with NB = 0 both are rejected. -/
theorem subbIgnoresTheOtherBits : Obligations.SubbIgnoresTheOtherBits := by
  intro s d d' nb h
  by_cases hnb : nb = 0
  · subst hnb
    rfl
  · rw [exec_subb_of_ne_zero d nb s hnb, exec_subb_of_ne_zero d' nb s hnb, subBits, subBits,
      keepBits_congr _ _ d d' h]

/-! ### The table (42_table.md sections 2 and 6) -/

theorem entry_zero {S : Nat} (W : Nat) (refin : Bool) (poly : BitVec S) : entry W refin poly 0 = 0#S := by
  have h : bitByte W refin poly 0#S 0 = 0#S := foldBits_zero W refin poly 8
  unfold entry
  rw [h]
  cases regime W refin <;> simp

theorem entry_xor {S : Nat} (W : Nat) (refin : Bool) (poly : BitVec S) (a b : Byte) :
    entry W refin poly (a ^^^ b) = entry W refin poly a ^^^ entry W refin poly b := by
  have h : bitByte W refin poly 0#S (a ^^^ b) = bitByte W refin poly 0#S a ^^^ bitByte W refin poly 0#S b := by
    simpa [bitByte] using foldBits_xor W refin poly 0#S 0#S a b 8
  unfold entry
  rw [h]
  cases regime W refin with
  | reflected => exact and_xor_right _ _ _
  | wide => exact and_xor_right _ _ _
  | narrow => simp only [and_xor_right, BitVec.shiftLeft_xor_distrib]

/-- In NARROW an entry stands above the low `sh` bits. -/
theorem getLsbD_entry_of_lt_sh {S W : Nat} (poly : BitVec S) (b : Byte) (hW : W < 8) {i : Nat} (hi : i < 8 - W) :
    (entry W false poly b).getLsbD i = false := by
  rw [entry, regime_of_lt hW]
  simp [sh, hi]

/-- Settles O44: a valid table is `buildTable`, whose entries are `entry`: linear in the byte, and of `W` bits. -/
theorem tableLaws : Obligations.TableLaws := by
  intro s ⟨htable, _⟩ htv
  rw [htable htv]
  simp only [readTable_buildTable]
  have hS : 8 ≤ s.inst.S := (storage_bounds s.inst).1
  refine ⟨entry_zero _ _ _, entry_xor _ _ _, fun b h => ?_, fun b href hW => ⟨?_, fun i hi => ?_⟩⟩
  · rw [toNat_entry _ _ b s.inst.W_le_S hS, if_neg (by rintro ⟨href, hW⟩; simp [href] at h; omega)]
    exact Nat.mod_lt _ (Nat.two_pow_pos _)
  · rw [toNat_entry _ _ b s.inst.W_le_S hS, if_pos ⟨href, hW⟩]
    calc _ < 2 ^ s.inst.W * 2 ^ (8 - s.inst.W) :=
          Nat.mul_lt_mul_of_pos_right (Nat.mod_lt _ (Nat.two_pow_pos _)) (Nat.two_pow_pos _)
      _ = 2 ^ 8 := by rw [← Nat.pow_add, Nat.add_sub_cancel' hW.le]
  · rw [href]
    exact getLsbD_entry_of_lt_sh _ b hW hi

/-- Settles O46: the valid table is `buildTable`, and `tabByte_low` and `tabByte_eq` compare the two bytes. -/
theorem enginesAgree : Obligations.EnginesAgree := by
  intro s d ⟨htable, _⟩ htv
  have hS : 8 ≤ s.inst.S := (storage_bounds s.inst).1
  refine ⟨_, _, exec_tabb_of_tvalid d s htv, rfl, ?_, fun h => ?_⟩
  · rw [htable htv, ← setWidth_eq_iff_mod]
    exact tabByte_low _ _ _ _ d s.inst.W_pos s.inst.W_le_S hS
  · rw [htable htv]
    exact tabByte_eq _ _ _ _ d s.inst.W_le_S hS h

/-! ### Finalize and UndoFinalize (44_finalize.md section 4) -/

/-- A remainder finalized and recovered: its low `W` bits come back, and with flag 0 XOROUT's other bits stay. -/
theorem getLsbD_undoFinalize_finalize (c : Instance) (xorout r : BitVec c.S) (R : Bool) {i : Nat} (hi : i < c.S) :
    (undoFinalize c.W xorout ((finalize c.W xorout r R).setWidth 64) R).getLsbD i =
      if i < c.W then r.getLsbD i else !R && xorout.getLsbD i := by
  obtain ⟨-, hS⟩ := storage_bounds c
  rw [getLsbD_undoFinalize c.W _ _ R c.W_le_S hS i hi, getLsbD_setWidth_finalize c _ _ R (show i < 64 by omega),
    getLsbD_setWidth_finalize c _ _ R (show c.W - 1 - i < 64 by have := c.W_le_S; omega)]
  by_cases h : i < c.W
  · cases R with
    | false => simp [h]
    | true => simp [h, show c.W - 1 - i < c.W by omega, show c.W - 1 - (c.W - 1 - i) = i by omega]
  · cases R <;> simp [h]

/-- XOROUT's bits at or above `W`, the others 0. -/
def highXorout {S : Nat} (W : Nat) (xorout : BitVec S) : BitVec S := xorout >>> W <<< W

theorem getLsbD_highXorout {S : Nat} (W : Nat) (xorout : BitVec S) {i : Nat} (hi : i < S) :
    (highXorout W xorout).getLsbD i = (decide (W ≤ i) && xorout.getLsbD i) := by
  rw [highXorout, BitVec.getLsbD_shiftLeft, BitVec.getLsbD_ushiftRight]
  by_cases h : W ≤ i
  · simp [hi, h, Nat.not_lt.2 h, Nat.add_sub_cancel' h]
  · simp [h, Nat.lt_of_not_le h]

theorem toNat_highXorout {S : Nat} (W : Nat) (xorout : BitVec S) :
    (highXorout W xorout).toNat = xorout.toNat / 2 ^ W * 2 ^ W := by
  rw [highXorout, BitVec.toNat_shiftLeft, BitVec.toNat_ushiftRight, Nat.shiftRight_eq_div_pow, Nat.shiftLeft_eq,
    Nat.mod_eq_of_lt ((Nat.div_mul_le_self _ _).trans_lt xorout.isLt)]

theorem undoFinalize_finalize (c : Instance) (xorout r : BitVec c.S) (R : Bool) (hr : r.toNat < 2 ^ c.W) :
    undoFinalize c.W xorout ((finalize c.W xorout r R).setWidth 64) R =
      if R then r else highXorout c.W xorout ||| r := by
  apply BitVec.eq_of_getLsbD_eq
  intro i hi
  rw [getLsbD_undoFinalize_finalize c xorout r R hi]
  have hclean : ¬ i < c.W → r.getLsbD i = false := fun h => (lt_two_pow_iff r c.W).1 hr i (Nat.le_of_not_lt h)
  cases R with
  | true => by_cases h : i < c.W <;> simp [h, hclean]
  | false =>
    rw [if_neg Bool.false_ne_true, BitVec.getLsbD_or, getLsbD_highXorout c.W xorout hi]
    by_cases h : i < c.W <;> simp [h, hclean, Nat.le_of_not_lt, Nat.not_le.2]

theorem highXorout_of_lt {S W : Nat} {xorout : BitVec S} (h : xorout.toNat < 2 ^ W) : highXorout W xorout = 0#S := by
  apply BitVec.eq_of_toNat_eq
  rw [toNat_highXorout, Nat.div_eq_of_lt h]
  simp

/-- With flag 1, or with a clean XOROUT, a clean remainder comes back whole. -/
theorem undoFinalize_finalize_of_clean (c : Instance) (xorout r : BitVec c.S) (R : Bool) (hr : r.toNat < 2 ^ c.W)
    (hx : R = true ∨ xorout.toNat < 2 ^ c.W) :
    undoFinalize c.W xorout ((finalize c.W xorout r R).setWidth 64) R = r := by
  rw [undoFinalize_finalize c xorout r R hr]
  rcases hx with rfl | hx
  · rfl
  · cases R with
    | true => rfl
    | false => rw [highXorout_of_lt hx]; exact BitVec.zero_or

/-- A checksum unfinalized and finalized again: its low `W` bits. -/
theorem finalize_undoFinalize (c : Instance) (xorout : BitVec c.S) (x : Word) (R : Bool) :
    finalize c.W xorout (undoFinalize c.W xorout x R) R = x.setWidth c.S &&& lowMask c.S c.W := by
  obtain ⟨-, hS⟩ := storage_bounds c
  have hWS := c.W_le_S
  apply BitVec.eq_of_getLsbD_eq
  intro i hi
  rw [getLsbD_finalize c.W _ _ R hWS, BitVec.getLsbD_and, getLsbD_lowMask, BitVec.getLsbD_setWidth]
  by_cases h : i < c.W
  · rw [getLsbD_undoFinalize c.W _ _ R hWS hS i hi, getLsbD_undoFinalize c.W _ _ R hWS hS _ (by omega)]
    cases R with
    | false => simp [h, hi]
    | true => simp [h, hi, show c.W - 1 - i < c.W by omega, show c.W - 1 - (c.W - 1 - i) = i by omega]
  · simp [h]

theorem setWidth_and_lowMask {n : Nat} (v : BitVec n) {W : Nat} (hW : W ≤ n) :
    (v &&& lowMask n W).setWidth W = v.setWidth W := by
  rw [← and_lowMask_eq_iff _ _ W hW, BitVec.and_assoc, BitVec.and_self]

/-- Settles O45: the two compositions, as `undoFinalize_finalize` and `finalize_undoFinalize`, and `finalize_congr`. -/
theorem finalizeLaws : Obligations.FinalizeLaws := by
  intro c xorout r x
  refine ⟨fun hr => ?_, fun hr hx => ?_, fun hr => ?_, fun R => ?_, fun R => ?_⟩
  · exact undoFinalize_finalize_of_clean c xorout r true hr (.inl rfl)
  · exact undoFinalize_finalize_of_clean c xorout r false hr (.inr hx)
  · rw [undoFinalize_finalize c xorout r false hr, if_neg Bool.false_ne_true, BitVec.toNat_or, toNat_highXorout,
      Nat.mul_comm, ← Nat.two_pow_add_eq_or_of_lt hr, Nat.add_comm]
  · rw [finalize_undoFinalize, toNat_and_lowMask _ c.W_le_S, BitVec.toNat_setWidth,
      Nat.mod_mod_of_dvd _ (Nat.pow_dvd_pow 2 c.W_le_S)]
  · exact finalize_congr c.W xorout _ _ R c.W_le_S (setWidth_and_lowMask r c.W_le_S).symm

/-! ### The bit-serial register (43_subbyte.md section 3, 46_host_api.md section 3) -/

theorem keepBits_eight (W : Nat) (refin : Bool) (b : Byte) : keepBits W refin b 8 = b := by
  rw [keepBits_eq_ite]
  cases refin with
  | true => exact and_lowMask_of_lt b 8 b.isLt
  | false => exact BitVec.and_allOnes

/-- BITB is SUBB's loop over all 8 bits. -/
theorem subBits_eight {S : Nat} (W : Nat) (refin : Bool) (poly r : BitVec S) (b : Byte) :
    subBits W refin poly r b 8 = bitByte W refin poly r b := by
  rw [subBits, keepBits_eight]
  rfl

/-- The bits that SUBB keeps are the message bits. -/
theorem messageBits_keepBits (W : Nat) (refin : Bool) (b : Byte) {n : Nat} (hn : n ≤ 8) :
    messageBits refin (keepBits W refin b n) n = messageBits refin b n := by
  rw [keepBits_eq_ite]
  refine List.map_congr_left fun i hi => ?_
  have hi' : i < n := List.mem_range.1 hi
  cases refin with
  | true => simp [hi', show i < 8 by omega]
  | false => simp [show 7 - i < 8 by omega, show 8 ≤ 7 - i + n by omega]

/-- In REFLECTED the engine needs, and keeps, a clean remainder: bits at or above `W` would come down. -/
def CleanIfReflected {S : Nat} (W : Nat) (refin : Bool) (r : BitVec S) : Prop := refin = true → r.toNat < 2 ^ W

/-- The first `n` message bits of a byte through the engine, against the bit-serial register. -/
theorem subBits_serial (c : Instance) (refin : Bool) (poly r : BitVec c.S) (b : Byte) {n : Nat} (hn : n ≤ 8)
    (hr : CleanIfReflected c.W refin r) :
    CleanIfReflected c.W refin (subBits c.W refin poly r b n) ∧
      (subBits c.W refin poly r b n).setWidth c.W =
        serialCrc c.W refin poly (r.setWidth c.W) (messageBits refin b n) := by
  have hS : 8 ≤ c.S := (storage_bounds c).1
  rw [← messageBits_keepBits c.W refin b hn, subBits]
  cases refin with
  | true =>
    have hkeep : (keepBits c.W true b n).toNat < 2 ^ n := by
      rw [keepBits_eq_ite]
      exact and_lowMask_lt b n
    obtain ⟨hclean, hserial⟩ := foldBits_reflected_serial c.W poly r _ n c.W_pos c.W_le_S hS hn hkeep (hr rfl)
    exact ⟨fun _ => hclean, hserial⟩
  | false =>
    refine ⟨fun h => Bool.noConfusion h, foldBits_direct_serial c.W poly r _ n c.W_pos c.W_le_S hS hn fun j hj => ?_⟩
    rw [keepBits_eq_ite]
    simp [show ¬ 8 ≤ j + n by omega]

theorem serialCrc_append {S : Nat} (W : Nat) (refin : Bool) (poly : BitVec S) (c : BitVec W) (xs ys : List Bool) :
    serialCrc W refin poly c (xs ++ ys) = serialCrc W refin poly (serialCrc W refin poly c xs) ys :=
  List.foldl_append

/-- One data command of `feedChunks`: BITB is the case of 8 bits. -/
theorem feedChunks_cons {S : Nat} (W : Nat) (refin : Bool) (poly seed : BitVec S) (p : Byte × Nat)
    (chunks : List (Byte × Nat)) :
    feedChunks W refin poly seed (p :: chunks) =
      feedChunks W refin poly (subBits W refin poly seed p.1 p.2) chunks := by
  rw [feedChunks, List.foldl_cons]
  split_ifs with h8
  · rw [h8, subBits_eight]
    rfl
  · rfl

theorem feedChunks_serial (c : Instance) (refin : Bool) (poly seed : BitVec c.S) (chunks : List (Byte × Nat))
    (hseed : CleanIfReflected c.W refin seed) (hchunks : ∀ p ∈ chunks, p.2 ≤ 8) :
    (feedChunks c.W refin poly seed chunks).setWidth c.W =
      serialCrc c.W refin poly (seed.setWidth c.W) (chunks.flatMap fun p => messageBits refin p.1 p.2) := by
  induction chunks generalizing seed with
  | nil => rfl
  | cons p chunks ih =>
    obtain ⟨hp, hchunks⟩ := List.forall_mem_cons.1 hchunks
    obtain ⟨hclean, hserial⟩ := subBits_serial c refin poly seed p.1 hp hseed
    rw [feedChunks_cons, ih _ hclean hchunks, hserial, List.flatMap_cons, serialCrc_append]

/-- Settles O47: `feedChunks_serial`, by induction on the data commands. -/
theorem engineComputesTheBitSerialCrc : Obligations.EngineComputesTheBitSerialCrc :=
  fun c refin poly seed chunks hseed hchunks =>
    feedChunks_serial c refin poly seed chunks (fun _ => hseed) fun p hp => (hchunks p hp).2

/-! ### NARROW's shifts (41_bit_engine.md section 5, 42_table.md section 6) -/

/-- Two forms of a fold, of which the second shifts up once before and down once after: they agree when each step does
and leaves no bit below `sh`. -/
theorem foldl_shift_once {S : Nat} (m : Nat) (f g : BitVec S → Byte → BitVec S)
    (hf : ∀ (r : BitVec S) x, f r x = g (r <<< m) x >>> m)
    (hg : ∀ (r : BitVec S) x, (g (r <<< m) x >>> m) <<< m = g (r <<< m) x)
    (seed : BitVec S) (b : Byte) (d : List Byte) :
    (b :: d).foldl f seed = (b :: d).foldl g (seed <<< m) >>> m := by
  induction d generalizing seed b with
  | nil => exact hf seed b
  | cons x d ih => rw [List.foldl_cons, ih, List.foldl_cons (l := x :: d), hf, hg]

/-- Settles O48: 8 steps, and a lookup, leave no bit below `sh`, so the shifts between two bytes cancel. -/
theorem narrowShiftsOncePerCall : Obligations.NarrowShiftsOncePerCall := by
  intro c poly seed b d hW
  constructor
  · refine foldl_shift_once (sh c.W) _
      (fun r x => (stepL (poly <<< sh c.W) 7)^[8] (r ^^^ x.setWidth c.S)) ?_ ?_ seed b d
    · intro r x
      rw [bitByte, foldBits, regime_of_lt hW]
    · intro r x
      exact shiftRight_shiftLeft_of_low_zero _ _ fun i hi =>
        narrow_low_zero c.W poly r x 8 (fun j hj => by omega) i hi
  · refine foldl_shift_once (sh c.W) _
      (fun r x => readTable (buildTable c.W false poly) ((r ^^^ x.setWidth c.S).setWidth 8)) ?_ ?_ seed b d
    · intro r x
      rw [tabByte, tableIndex, regime_of_lt hW]
    · intro r x
      rw [readTable_buildTable]
      exact shiftRight_shiftLeft_of_low_zero _ _ fun i hi => getLsbD_entry_of_lt_sh poly _ hW hi

/-! ### Which procedures are refused (46_host_api.md section 4) -/

theorem takeBytes_eq_none_iff (buf : List Byte) (n : Nat) : takeBytes buf n = none ↔ buf.length < n := by
  unfold takeBytes
  split_ifs with h
  · simpa using h
  · simpa using h

theorem feedBits_whole (x : DataEngine) (buf : List Byte) {n : Nat} (h : n % 8 = 0) :
    feedBits x buf n = (takeBytes buf (n / 8)).map (feedBytes x) := by
  simp only [feedBits, if_pos h]
  exact (Option.map_eq_bind ..).symm

/-- A tail needs one byte after the whole ones; with it the whole ones are there too. -/
theorem feedBits_tail (x : DataEngine) (buf : List Byte) {n : Nat} (h : n % 8 ≠ 0) :
    feedBits x buf n = (buf[n / 8]?).map fun t =>
      feedBytes x (buf.take (n / 8)) ++ [commandEvent (.subb t (BitVec.ofNat 3 (n % 8)))] := by
  simp only [feedBits, if_neg h, takeBytes]
  split_ifs with hlen
  · rfl
  · rw [List.getElem?_eq_none (by omega)]
    rfl

theorem feedBits_eq_none_iff (x : DataEngine) (buf : List Byte) (n : Nat) :
    feedBits x buf n = none ↔ 8 * buf.length < n := by
  by_cases h : n % 8 = 0
  · rw [feedBits_whole x buf h, Option.map_eq_none_iff, takeBytes_eq_none_iff]
    omega
  · rw [feedBits_tail x buf h, Option.map_eq_none_iff, List.getElem?_eq_none_iff]
    omega

/-- Settles O51: a procedure is refused when its data commands are. -/
theorem proceduresRefuseOnlyPastTheBuffer : Obligations.ProceduresRefuseOnlyPastTheBuffer := by
  intro x prev buf n
  simp only [calculate, continueFrom, calculateBits, continueBits, Option.map_eq_none_iff, takeBytes_eq_none_iff,
    feedBits_eq_none_iff, and_self]

/-- Settles O52: with no bit left over, the data commands are those of the bytes. -/
theorem wholeByteBitCountsNeedNoSubb : Obligations.WholeByteBitCountsNeedNoSubb := by
  intro x prev buf k
  have hfeed : feedBits x buf (8 * k) = (takeBytes buf k).map (feedBytes x) := by
    rw [feedBits_whole x buf (Nat.mul_mod_right 8 k), Nat.mul_div_cancel_left k (by decide)]
  simp only [calculateBits, continueBits, hfeed, Option.map_map]
  exact ⟨rfl, rfl⟩

/-! ### Host programs as block transformers -/

/-- The events `evs` take the block of the instance `c` from `a` to `b` and read the values `rs`, whatever the host has
read before and does after. -/
def Serves (c : Instance) (evs : List HostEvent) (a b : Block c.S) (rs : List Word) : Prop :=
  ∀ (rest : List HostEvent) (old : List Word),
    run evs.length ⟨c, a, evs ++ rest, old⟩ = .next ⟨c, b, rest, old ++ rs⟩

section
variable {c : Instance} {a a' b : Block c.S}

theorem Serves.nil : Serves c [] a a [] := by
  intro rest old
  rw [List.append_nil]
  rfl

theorem Serves.event {e : HostEvent} {rs : List Word}
    (h : ∀ rest old, hostEvent e ⟨c, a, rest, old⟩ = .next ⟨c, b, rest, old ++ rs⟩) : Serves c [e] a b rs :=
  fun rest old => run_succ_of_step 0 _ _ (h rest old)

theorem Serves.append {evs evs' : List HostEvent} {rs rs' : List Word} (h : Serves c evs a a' rs)
    (h' : Serves c evs' a' b rs') : Serves c (evs ++ evs') a b (rs ++ rs') := by
  intro rest old
  rw [List.append_assoc, List.length_append, run_add _ _ _ _ (h (evs' ++ rest) old), h', List.append_assoc]

/-- A command with legal fields, written to CMD. -/
theorem Serves.command {i : Instr} (hwf : i.wf = true)
    (h : ∀ rest old, exec i ⟨c, a, rest, old⟩ = .next ⟨c, b, rest, old⟩) : Serves c [commandEvent i] a b [] := by
  refine Serves.event fun rest old => ?_
  rw [List.append_nil, ← h]
  exact runCommand_of_ok _ _ i (decodeOfEncode i hwf)

/-- One command a byte, each making REM `f` of it and the byte: the fold of `f`. -/
theorem Serves.bytes {f : BitVec c.S → Byte → BitVec c.S} {e : Byte → HostEvent}
    (h : ∀ r x, Serves c [e x] (a.setRem r) (a.setRem (f r x)) []) (d : List Byte) (r : BitVec c.S) :
    Serves c (d.map e) (a.setRem r) (a.setRem (d.foldl f r)) [] := by
  induction d generalizing r with
  | nil => exact Serves.nil
  | cons x d ih => exact (h r x).append (ih (f r x))

end

/-- A program issued to a machine ends with nothing pending. -/
theorem Serves.run_issue {s : State} {evs : List HostEvent} {b : Block s.inst.S} {rs : List Word}
    (h : Serves s.inst evs s.block b rs) :
    run evs.length (s.issue evs) = .next ⟨s.inst, b, [], s.replies ++ rs⟩ := by
  simpa using h [] s.replies

/-! ### The parts of the procedures (46_host_api.md sections 1 to 3) -/

/-- What one whole-byte command of a shape makes of the remainder. -/
def byteStep {S : Nat} (W : Nat) (b : Block S) (x : DataEngine) : BitVec S → Byte → BitVec S :=
  match x with
  | .bitwise => bitByte W b.refin b.poly
  | .table => tabByte W b.refin b.table

/-- The checksum of a remainder: what FIN auto stores in RESULT. -/
def checksum {S : Nat} (W : Nat) (b : Block S) (r : BitVec S) : Word :=
  (finalize W b.xorout r (b.refin ^^ b.refout)).setWidth 64

section
variable {c : Instance} {b : Block c.S}

theorem serves_seedFresh : Serves c seedFresh b (b.setRem b.init) [] :=
  Serves.command rfl fun _ _ => rfl

theorem serves_seedFrom (prev : Word) : Serves c (seedFrom prev) b
    ((b.writeOpnd prev).setRem (undoFinalize c.W b.xorout prev (b.refin ^^ b.refout))) [] :=
  Serves.append (evs := [_]) (Serves.event (b := b.writeOpnd prev) (rs := []) fun _ _ => by rw [List.append_nil]; rfl)
    (Serves.command rfl fun _ _ => rfl)

theorem serves_finish : Serves c finish b (b.setResult (checksum c.W b b.rem)) [checksum c.W b b.rem] :=
  Serves.append (evs := [_]) (Serves.command rfl fun _ _ => rfl) (Serves.event fun _ _ => rfl)

theorem serves_feedBytes {x : DataEngine} (hready : x = .table → b.tvalid = true) (d : List Byte) (r : BitVec c.S) :
    Serves c (feedBytes x d) (b.setRem r) (b.setRem (d.foldl (byteStep c.W b x) r)) [] := by
  refine Serves.bytes (fun r y => ?_) d r
  cases x with
  | bitwise => exact Serves.command rfl fun _ _ => rfl
  | table => exact Serves.command rfl fun rest old => exec_tabb_of_tvalid y ⟨c, b.setRem r, rest, old⟩ (hready rfl)

/-- The remainder after the tail of a message of `n` bits: the first `n % 8` bits of the byte after the whole ones. -/
def tailRem {S : Nat} (W : Nat) (b : Block S) (buf : List Byte) (n : Nat) (r : BitVec S) : BitVec S :=
  if n % 8 = 0 then r else subBits W b.refin b.poly r (buf.getD (n / 8) 0) (n % 8)

theorem serves_feedBits {x : DataEngine} (hready : x = .table → b.tvalid = true) {buf : List Byte} {n : Nat}
    {evs : List HostEvent} (h : feedBits x buf n = some evs) (r : BitVec c.S) :
    Serves c evs (b.setRem r)
      (b.setRem (tailRem c.W b buf n ((buf.take (n / 8)).foldl (byteStep c.W b x) r))) [] := by
  by_cases hn : n % 8 = 0
  · rw [feedBits_whole x buf hn, takeBytes] at h
    split_ifs at h with hlen
    · cases h
      rw [tailRem, if_pos hn]
      exact serves_feedBytes hready _ r
    · cases h
  · rw [feedBits_tail x buf hn] at h
    obtain ⟨t, ht, rfl⟩ := Option.map_eq_some_iff.1 h
    rw [tailRem, if_neg hn, List.getD_eq_getElem?_getD, ht]
    refine (serves_feedBytes hready _ r).append (Serves.command ?_ fun rest old => ?_)
    · exact bne_iff_ne.2 (nb_of_count (by omega) (by omega)).2
    · obtain ⟨htoNat, hne⟩ := nb_of_count (k := n % 8) (by omega) (by omega)
      rw [exec_subb_of_ne_zero _ _ _ hne, htoNat]
      rfl

/-- A procedure: a seed, data commands that make REM `r'` of it, and the checksum of `r'` read. -/
theorem serves_procedure {a b : Block c.S} {seed evs : List HostEvent} {r r' : BitVec c.S}
    (hseed : Serves c seed a (b.setRem r) []) (hfeed : Serves c evs (b.setRem r) (b.setRem r') []) :
    Serves c (seed ++ evs ++ finish) a ((b.setRem r').setResult (checksum c.W b r')) [checksum c.W b r'] :=
  (hseed.append hfeed).append serves_finish

theorem serves_wholeMessage {x : DataEngine} (hready : x = .table → b.tvalid = true) (d : List Byte) :
    Serves c (wholeMessage x d) b
      ((b.setRem (d.foldl (byteStep c.W b x) b.init)).setResult (checksum c.W b (d.foldl (byteStep c.W b x) b.init)))
      [checksum c.W b (d.foldl (byteStep c.W b x) b.init)] :=
  serves_procedure serves_seedFresh (serves_feedBytes hready d b.init)

end

/-- From the state `s` the whole program `evs` runs and reads the one value `v`. -/
def Reads (s : State) (evs : List HostEvent) (v : Word) : Prop :=
  ∃ b, run evs.length (s.issue evs) = .next ⟨s.inst, b, [], s.replies ++ [v]⟩

section
variable {s : State} {x : DataEngine} (hready : x = .table → s.block.tvalid = true)
include hready

theorem reads_wholeMessage (d : List Byte) : Reads s (wholeMessage x d)
    (checksum s.inst.W s.block (d.foldl (byteStep s.inst.W s.block x) s.block.init)) :=
  ⟨_, (serves_wholeMessage hready d).run_issue⟩

theorem reads_continueFrom (prev : Word) (d : List Byte) : Reads s (seedFrom prev ++ feedBytes x d ++ finish)
    (checksum s.inst.W s.block (d.foldl (byteStep s.inst.W s.block x)
      (undoFinalize s.inst.W s.block.xorout prev (s.block.refin ^^ s.block.refout)))) :=
  ⟨_, (serves_procedure (serves_seedFrom prev)
    (serves_feedBytes (b := s.block.writeOpnd prev) hready d _)).run_issue⟩

theorem reads_calculateBits {buf : List Byte} {n : Nat} {evs : List HostEvent}
    (h : calculateBits x buf n = some evs) : Reads s evs (checksum s.inst.W s.block
      (tailRem s.inst.W s.block buf n ((buf.take (n / 8)).foldl (byteStep s.inst.W s.block x) s.block.init))) := by
  obtain ⟨feed, hfeed, rfl⟩ := Option.map_eq_some_iff.1 h
  exact ⟨_, (serves_procedure serves_seedFresh (serves_feedBits hready hfeed _)).run_issue⟩

theorem reads_continueBits {prev : Word} {buf : List Byte} {n : Nat} {evs : List HostEvent}
    (h : continueBits x prev buf n = some evs) : Reads s evs (checksum s.inst.W s.block
      (tailRem s.inst.W s.block buf n ((buf.take (n / 8)).foldl (byteStep s.inst.W s.block x)
        (undoFinalize s.inst.W s.block.xorout prev (s.block.refin ^^ s.block.refout))))) := by
  obtain ⟨feed, hfeed, rfl⟩ := Option.map_eq_some_iff.1 h
  exact ⟨_, (serves_procedure (serves_seedFrom prev)
    (serves_feedBits (b := s.block.writeOpnd prev) hready hfeed _)).run_issue⟩

end

/-! ### The two engines over a message (42_table.md section 6) -/

/-- Two remainders the engines take alike: equal on bits `W-1:0`, and in REFLECTED, where the others come down, on all
bits. -/
def SameRem {S : Nat} (W : Nat) (refin : Bool) (r r' : BitVec S) : Prop :=
  r.setWidth W = r'.setWidth W ∧ (refin = true → r = r')

theorem SameRem.refl {S W : Nat} {refin : Bool} (r : BitVec S) : SameRem W refin r r := ⟨rfl, fun _ => rfl⟩

/-- The bit engine keeps the relation (41_bit_engine.md R110). -/
theorem SameRem.bits {c : Instance} {refin : Bool} {r r' : BitVec c.S} (h : SameRem c.W refin r r')
    (poly : BitVec c.S) (d : Byte) (k : Nat) :
    SameRem c.W refin (foldBits c.W refin poly r d k) (foldBits c.W refin poly r' d k) := by
  obtain ⟨hlow, heq⟩ := h
  cases refin with
  | true => rw [heq rfl]; exact SameRem.refl _
  | false =>
    exact ⟨foldBits_low c.W false poly r r' d k c.W_pos c.W_le_S (storage_bounds c).1 (regime_ne_reflected c.W) hlow,
      fun h => Bool.noConfusion h⟩

/-- A byte through either engine, against the bit-by-bit one. -/
theorem SameRem.byte {c : Instance} {b : Block c.S} {x : DataEngine}
    (htable : x = .table → b.table = buildTable c.W b.refin b.poly) {r r' : BitVec c.S}
    (h : SameRem c.W b.refin r r') (d : Byte) :
    SameRem c.W b.refin (byteStep c.W b x r d) (bitByte c.W b.refin b.poly r' d) := by
  obtain ⟨hlow, heq⟩ := h.bits b.poly d 8
  cases x with
  | bitwise => exact ⟨hlow, heq⟩
  | table =>
    have hS := (storage_bounds c).1
    rw [byteStep, htable rfl]
    refine ⟨(tabByte_low c.W _ _ r d c.W_pos c.W_le_S hS).trans hlow, fun href => ?_⟩
    exact (tabByte_eq c.W _ _ r d c.W_le_S hS (.inl href)).trans (heq href)

/-- A message through either engine, against the bit-by-bit one. -/
theorem SameRem.bytes {c : Instance} {b : Block c.S} {x : DataEngine}
    (htable : x = .table → b.table = buildTable c.W b.refin b.poly) (d : List Byte) {r r' : BitVec c.S}
    (h : SameRem c.W b.refin r r') :
    SameRem c.W b.refin (d.foldl (byteStep c.W b x) r) (d.foldl (bitByte c.W b.refin b.poly) r') := by
  induction d generalizing r r' with
  | nil => exact h
  | cons y d ih => exact ih (h.byte htable y)

theorem SameRem.tail {c : Instance} {b : Block c.S} {r r' : BitVec c.S} (h : SameRem c.W b.refin r r')
    (buf : List Byte) (n : Nat) : SameRem c.W b.refin (tailRem c.W b buf n r) (tailRem c.W b buf n r') := by
  unfold tailRem
  split_ifs
  · exact h
  · exact h.bits b.poly _ _

/-- FIN makes the same checksum of both (44_finalize.md R157). -/
theorem SameRem.checksum_eq {c : Instance} {b : Block c.S} {r r' : BitVec c.S} (h : SameRem c.W b.refin r r') :
    checksum c.W b r = checksum c.W b r' := by
  rw [checksum, checksum, finalize_congr c.W b.xorout r r' _ c.W_le_S h.1]

/-- Settles O54: both shapes read the checksum of remainders that `SameRem` relates. -/
theorem procedureShapesAgree : Obligations.ProcedureShapesAgree := by
  intro s prev buf n ⟨htable, _⟩ htv
  have hbit : DataEngine.bitwise = .table → s.block.tvalid = true := fun h => DataEngine.noConfusion h
  have hsame (r : BitVec s.inst.S) :=
    ((SameRem.bytes (x := .table) (fun _ => htable htv) (buf.take (n / 8)) (SameRem.refl r)).tail buf n).checksum_eq
  refine ⟨fun eb et heb het => ?_, fun eb et heb het => ?_⟩
  · obtain ⟨bb, hb⟩ := reads_calculateBits hbit heb
    obtain ⟨bt, ht⟩ := reads_calculateBits (fun _ => htv) het
    rw [hsame] at ht
    exact ⟨_, _, _, hb, ht, rfl, rfl⟩
  · obtain ⟨bb, hb⟩ := reads_continueBits hbit heb
    obtain ⟨bt, ht⟩ := reads_continueBits (fun _ => htv) het
    rw [hsame] at ht
    exact ⟨_, _, _, hb, ht, rfl, rfl⟩

/-! ### The checksum as the bit-serial register (46_host_api.md sections 1 and 3) -/

theorem foldl_bitByte_serial (c : Instance) (refin : Bool) (poly seed : BitVec c.S) (d : List Byte)
    (hseed : CleanIfReflected c.W refin seed) :
    (d.foldl (bitByte c.W refin poly) seed).setWidth c.W =
      serialCrc c.W refin poly (seed.setWidth c.W) (messageBitsOf refin d) := by
  have h := feedChunks_serial c refin poly seed (d.map fun b => (b, 8)) hseed (by simp)
  rwa [feedChunks, List.foldl_map, List.flatMap_map] at h

/-- Settles O53: the value read is the checksum of the remainder, whose low `W` bits are the serial register. -/
theorem calculateReturnsTheSerialCrc : Obligations.CalculateReturnsTheSerialCrc := by
  intro s d evs hinit hevs
  rw [calculate_length] at hevs
  cases hevs
  obtain ⟨b, hrun⟩ := reads_wholeMessage (s := s) (x := .bitwise) (fun h => DataEngine.noConfusion h) d
  refine ⟨_, _, hrun, rfl, rfl, fun i hi => ?_⟩
  rw [← foldl_bitByte_serial s.inst s.block.refin s.block.poly s.block.init d fun _ => hinit, checksum,
    getLsbD_setWidth_finalize s.inst _ _ _ hi]
  by_cases hiW : i < s.inst.W
  · rw [BitVec.getLsbD_setWidth, BitVec.getLsbD_setWidth, decide_eq_true hiW,
      decide_eq_true (show s.inst.W - 1 - i < s.inst.W by omega)]
    by_cases hflags : s.block.refin = s.block.refout
    · simp [hflags, byteStep]
    · simp [hflags, byteStep]
  · simp [hiW]

/-! ### Continuation (46_host_api.md section 5) -/

/-- The bit engine keeps a clean remainder clean in REFLECTED, and the table engine is then the bit engine. -/
theorem foldl_clean {c : Instance} {b : Block c.S} {x : DataEngine}
    (htable : x = .table → b.table = buildTable c.W b.refin b.poly) (d : List Byte) (seed : BitVec c.S)
    (hseed : seed.toNat < 2 ^ c.W) : CleanIfReflected c.W b.refin (d.foldl (byteStep c.W b x) seed) := by
  intro href
  rw [(SameRem.bytes htable d (SameRem.refl seed)).2 href]
  induction d generalizing seed with
  | nil => exact hseed
  | cons y d ih =>
    exact ih _ (foldBits_reflected_lt c.W b.refin b.poly seed y 8 c.W_le_S (by rw [href]; rfl) y.isLt hseed)

/-- A checksum unfinalized is taken by the engines as the remainder it was made of. -/
theorem sameRem_undoFinalize_checksum {c : Instance} {b : Block c.S} {r : BitVec c.S}
    (hr : CleanIfReflected c.W b.refin r) (hx : b.xorout.toNat < 2 ^ c.W) :
    SameRem c.W b.refin (undoFinalize c.W b.xorout (checksum c.W b r) (b.refin ^^ b.refout)) r := by
  refine ⟨?_, fun href => undoFinalize_finalize_of_clean c b.xorout r _ (hr href) (.inr hx)⟩
  apply BitVec.eq_of_getLsbD_eq
  intro i hi
  have hiS : i < c.S := hi.trans_le c.W_le_S
  rw [BitVec.getLsbD_setWidth, BitVec.getLsbD_setWidth, checksum, getLsbD_undoFinalize_finalize c _ r _ hiS, if_pos hi]

theorem continueFrom_length (x : DataEngine) (prev : Word) (d : List Byte) :
    continueFrom x prev d d.length = some (seedFrom prev ++ feedBytes x d ++ finish) := by
  simp [continueFrom, takeBytes]

/-- A continuation from the checksum of a message reads the checksum of both messages together. -/
theorem checksum_continuation {c : Instance} {b : Block c.S} {x : DataEngine}
    (htable : x = .table → b.table = buildTable c.W b.refin b.poly) (hinit : b.init.toNat < 2 ^ c.W)
    (hx : b.xorout.toNat < 2 ^ c.W) (d e : List Byte) :
    checksum c.W b (e.foldl (byteStep c.W b x) (undoFinalize c.W b.xorout
      (checksum c.W b (d.foldl (byteStep c.W b x) b.init)) (b.refin ^^ b.refout))) =
      checksum c.W b ((d ++ e).foldl (byteStep c.W b x) b.init) := by
  have hsame := sameRem_undoFinalize_checksum (foldl_clean htable d b.init hinit) hx
  rw [List.foldl_append, (SameRem.bytes htable e hsame).checksum_eq,
    (SameRem.bytes htable e (SameRem.refl _)).checksum_eq]

/-- A block whose last messages left REM and RESULT. -/
abbrev afterMessages {S : Nat} (b : Block S) (r : BitVec S) (v : Word) : Block S := (b.setRem r).setResult v

/-- Settles O55: the continuation runs from the block the first message leaves, whose parameters, TVALID and table are
those of `s`. -/
theorem continuationAgrees : Obligations.ContinuationAgrees := by
  intro s x a b whole first hx hinit hxorout hwhole hfirst
  rw [calculate_length] at hwhole hfirst
  cases hwhole
  cases hfirst
  have hready (h : x = .table) : s.block.tvalid = true := (hx h).2
  have htable (h : x = .table) : s.block.table = buildTable s.inst.W s.block.refin s.block.poly := by
    obtain ⟨⟨hmatch, -⟩, htv⟩ := hx h
    exact hmatch htv
  obtain ⟨bw, hw⟩ := reads_wholeMessage hready (a ++ b)
  have hf := (serves_wholeMessage hready a).run_issue
  generalize hprev : checksum s.inst.W s.block (a.foldl (byteStep s.inst.W s.block x) s.block.init) = prev at hf
  obtain ⟨bs, hs⟩ := reads_continueFrom
    (s := ⟨s.inst, afterMessages s.block (a.foldl (byteStep s.inst.W s.block x) s.block.init) prev, [],
      s.replies ++ [prev]⟩)
    hready prev b
  refine ⟨_, _, _, prev, hw, rfl, hf, rfl, _, _, continueFrom_length x prev b, hs, ?_⟩
  rw [← checksum_continuation htable hinit hxorout a b, hprev]
  exact List.append_assoc ..

/-! ### Table reuse (42_table.md section 6) -/

/-- One message after another: each reads its own checksum, and all but REM and RESULT stays. -/
theorem serves_calculateEach {c : Instance} {b : Block c.S} {x : DataEngine} (hready : x = .table → b.tvalid = true)
    (msgs : List (List Byte)) (r : BitVec c.S) (v : Word) :
    ∃ r' v', Serves c (calculateEach x msgs) (afterMessages b r v) (afterMessages b r' v')
      (msgs.map fun d => checksum c.W b (d.foldl (byteStep c.W b x) b.init)) := by
  induction msgs generalizing r v with
  | nil => exact ⟨r, v, Serves.nil⟩
  | cons d msgs ih =>
    obtain ⟨r', v', hrest⟩ := ih (d.foldl (byteStep c.W b x) b.init)
      (checksum c.W b (d.foldl (byteStep c.W b x) b.init))
    exact ⟨r', v', (serves_wholeMessage (b := afterMessages b r v) hready d).append hrest⟩

/-- Settles O56: `serves_calculateEach`, and `SameRem` for each message. -/
theorem tableReuse : Obligations.TableReuse := by
  intro s msgs ⟨htable, _⟩ htv
  obtain ⟨r, v, hserves⟩ :=
    serves_calculateEach (b := s.block) (x := .table) (fun _ => htv) msgs s.block.rem s.block.result
  refine ⟨_, _, hserves.run_issue, List.length_map _, htv, rfl, fun i d v hd hv => ?_⟩
  obtain ⟨b, hrun⟩ := reads_wholeMessage (s := s) (x := .bitwise) (fun h => DataEngine.noConfusion h) d
  refine ⟨_, _, calculate_length .bitwise d, hrun, ?_⟩
  rw [List.getElem?_map, hd] at hv
  cases hv
  have hsame := SameRem.bytes (x := .table) (fun _ => htable htv) d (SameRem.refl s.block.init)
  exact congrArg (s.replies ++ [·]) hsame.checksum_eq.symm

/-! ### The preparation and the known answers (70_reset_and_hazards.md section 2, 46_host_api.md R184) -/

/-- The block after PARAMS. -/
def withParams {S : Nat} (b : Block S) (p i xo : Word) (ri ro : Bool) : Block S :=
  (((b.writePoly p).writeInit i).writeXorout xo).writeCfg (cfgWord ri ro)

/-- The block after the preparation of a shape: for the table shape, with the table of its parameters. -/
def prepared {S : Nat} (W : Nat) (b : Block S) (x : DataEngine) (p i xo : Word) (ri ro : Bool) : Block S :=
  let b' := withParams b p i xo ri ro
  match x with
  | .bitwise => b'
  | .table => b'.setTable (buildTable W b'.refin b'.poly)

section
variable {S W : Nat} (b : Block S) (x : DataEngine) (p i xo : Word) (ri ro : Bool)

theorem withParams_refin : (withParams b p i xo ri ro).refin = ri := by
  rw [withParams, writeCfg_refin]
  cases ri <;> cases ro <;> rfl

theorem withParams_refout : (withParams b p i xo ri ro).refout = ro := by
  rw [withParams, writeCfg_refout]
  cases ri <;> cases ro <;> rfl

theorem prepared_refin : (prepared W b x p i xo ri ro).refin = ri := by
  cases x <;> exact withParams_refin b p i xo ri ro

theorem prepared_refout : (prepared W b x p i xo ri ro).refout = ro := by
  cases x <;> exact withParams_refout b p i xo ri ro

theorem prepared_tvalid : (prepared W b x p i xo ri ro).tvalid = true ↔ x = .table := by
  cases x <;> simp [prepared, withParams]

theorem prepared_tableMatches : (prepared W b x p i xo ri ro).TableMatches W := by
  intro htv
  obtain rfl := (prepared_tvalid b x p i xo ri ro).1 htv
  rfl

end

theorem serves_params {c : Instance} (b : Block c.S) (p i xo : Word) (ri ro : Bool) :
    Serves c (AsmLine.params p i xo ri ro).expand b (withParams b p i xo ri ro) [] := by
  intro rest old
  rw [List.append_nil]
  rfl

theorem serves_prepare {c : Instance} (b : Block c.S) (x : DataEngine) (p i xo : Word) (ri ro : Bool) :
    Serves c (prepare x p i xo ri ro) b (prepared c.W b x p i xo ri ro) [] := by
  cases x with
  | bitwise => exact (serves_params b p i xo ri ro).append Serves.nil
  | table => exact (serves_params b p i xo ri ro).append (Serves.command rfl fun _ _ => rfl)

/-- Settles O50: the block after the preparation is `prepared`, field by field. -/
theorem preparationLeavesAReadyBlock : Obligations.PreparationLeavesAReadyBlock := by
  intro s x p i xo ri ro
  have hrun := (serves_prepare s.block x p i xo ri ro).run_issue
  rw [List.append_nil] at hrun
  have hrefin := prepared_refin (W := s.inst.W) s.block x p i xo ri ro
  have hrefout := prepared_refout (W := s.inst.W) s.block x p i xo ri ro
  have htv := prepared_tvalid (W := s.inst.W) s.block x p i xo ri ro
  have htable := prepared_tableMatches (W := s.inst.W) s.block x p i xo ri ro
  refine ⟨_, hrun, ?_⟩
  cases x <;> exact ⟨BitVec.toNat_setWidth .., BitVec.toNat_setWidth .., BitVec.toNat_setWidth .., hrefin, hrefout, htv,
    htable, rfl, rfl, rfl, rfl, rfl, rfl, rfl, rfl, rfl⟩

/-- The checksum of a message under a parameter set, by the bit engine (46_host_api.md section 1). -/
def paramChecksum (c : Instance) (p i xo : Word) (ri ro : Bool) (d : List Byte) : Word :=
  (finalize c.W (xo.setWidth c.S) (d.foldl (bitByte c.W ri (p.setWidth c.S)) (i.setWidth c.S)) (ri ^^ ro)).setWidth 64

/-- Preparation and `Calculate`, with either engine, from every state. -/
theorem run_prepare_wholeMessage (s : State) (x : DataEngine) (p i xo : Word) (ri ro : Bool) (d : List Byte) :
    let all := prepare x p i xo ri ro ++ wholeMessage x d
    ∃ t, run all.length (s.issue all) = .next t ∧ t.replies = s.replies ++ [paramChecksum s.inst p i xo ri ro d] := by
  have hready (h : x = .table) := (prepared_tvalid (W := s.inst.W) s.block x p i xo ri ro).2 h
  have htable (h : x = .table) := prepared_tableMatches (W := s.inst.W) s.block x p i xo ri ro (hready h)
  refine ⟨_, ((serves_prepare s.block x p i xo ri ro).append (serves_wholeMessage hready d)).run_issue, ?_⟩
  rw [(SameRem.bytes htable d (SameRem.refl _)).checksum_eq, checksum, prepared_refin, prepared_refout]
  cases x <;> rfl

theorem paramChecksum_eq_of_sizes (p i xo : Word) (ri ro : Bool) (d : List Byte) {c c' : Instance} (hW : c.W = c'.W)
    (hS : c.S = c'.S) : paramChecksum c p i xo ri ro d = paramChecksum c' p i xo ri ro d := by
  obtain ⟨W, S, _, _, _⟩ := c
  obtain ⟨W', S', _, _, _⟩ := c'
  obtain rfl : W = W' := hW
  obtain rfl : S = S' := hS
  rfl

/-- The nine bytes of R184, "123456789" in ASCII. -/
def checkMessage : List Byte := [0x31, 0x32, 0x33, 0x34, 0x35, 0x36, 0x37, 0x38, 0x39]

/-! The three values of R184, by evaluation of the bit engine. -/

theorem paramChecksum_width_8 :
    paramChecksum ⟨8, 8, by decide, by decide, by decide⟩ 0x07 0x00 0x00 false false checkMessage = 0xF4 := by
  set_option maxRecDepth 10000 in decide

theorem paramChecksum_width_16 :
    paramChecksum ⟨16, 16, by decide, by decide, by decide⟩ 0x8005 0x0000 0x0000 true true checkMessage = 0xBB3D := by
  set_option maxRecDepth 10000 in decide

theorem paramChecksum_width_32 :
    paramChecksum ⟨32, 32, by decide, by decide, by decide⟩ 0x04C11DB7 0xFFFFFFFF 0xFFFFFFFF true true checkMessage =
      0xCBF43926 := by
  set_option maxRecDepth 10000 in decide

/-- Settles O49: both engines read `paramChecksum`, which is evaluated once for each width. -/
theorem knownCheckValues : Obligations.KnownCheckValues := by
  intro s x evs hevs
  cases hevs.symm.trans (calculate_length x checkMessage)
  refine ⟨fun hW hS => ?_, fun hW hS => ?_, fun hW hS => ?_⟩
  · rw [← paramChecksum_width_8, ← paramChecksum_eq_of_sizes _ _ _ _ _ _ hW hS]
    exact run_prepare_wholeMessage s x _ _ _ _ _ checkMessage
  · rw [← paramChecksum_width_16, ← paramChecksum_eq_of_sizes _ _ _ _ _ _ hW hS]
    exact run_prepare_wholeMessage s x _ _ _ _ _ checkMessage
  · rw [← paramChecksum_width_32, ← paramChecksum_eq_of_sizes _ _ _ _ _ _ hW hS]
    exact run_prepare_wholeMessage s x _ _ _ _ _ checkMessage

end Sys2Proof.Proofs.Other
end
